-- ==== Sys2Proof/Word.lean ====
section
/-! DEFINITION. The word types of the core (00_scope.md R7, R10, R15). -/

namespace Sys2Proof

/-- The value of a general register: 64 bits (R7, R10). -/
abbrev RegVal := BitVec 64

/-- A byte address, and the program counter: 64 bits (R7, R25). -/
abbrev Addr := BitVec 64

/-- One byte of the memory image (R33). -/
abbrev Byte := BitVec 8

/-- A "word" in the spec's sense: a 32-bit instruction word or a 4-byte datum (R15). -/
abbrev Word := BitVec 32

/-- The 32-bit container that holds a decoded immediate (R7, R70). -/
abbrev Imm := BitVec 32

end Sys2Proof
end

