-- ==== Sys2Proof/Machine/Flags.lean ====
section
/-! DEFINITION. The core has NO flags, condition codes or predicate registers (10_state.md R28): an instruction writes
none, and State holds none. What other machines keep in flags are comparisons here, which write a register (SLT, SLTU,
SLTI, SLTIU) or decide a branch. -/

namespace Sys2Proof.Machine

/-- `s(a) < s(b)`: two's-complement (R10). -/
def ltSigned (a b : RegVal) : Bool := decide (a.toInt < b.toInt)

/-- `u(a) < u(b)` (R10; unsigned for SLTU and SLTIU by C1 and D27). -/
def ltUnsigned (a b : RegVal) : Bool := decide (a.toNat < b.toNat)

/-- `bool(c)`: 1 or 0 as a 64-bit value (R10). -/
def boolVal (c : Bool) : RegVal := if c then 1 else 0

end Sys2Proof.Machine
end

