-- ==== Sys2Proof/Syntax.lean ====
section
/-! DEFINITION. The instructions: one constructor for each of the 37 rows of spec/opcode_table.json (R4, R73), with
the operands of its format (30_encoding.md R62). An immediate stands at the width its word encodes; how it is
extended is in Decode.lean (R63 to R67) and Machine/Operands.lean (R69). -/

namespace Sys2Proof

/-- A register index: one of `x0` to `x31` (R20). -/
abbrev Reg := Fin 32

/-- The 37 mnemonics of spec/opcode_table.json, in its order. -/
inductive Mnemonic where
  | ADD | SUB | SLL | SLT | SLTU | XOR | SRL | SRA | OR | AND
  | ADDI | SLLI | SLTI | SLTIU | XORI | SRLI | SRAI | ORI | ANDI
  | LB | LH | LW | LBU | LHU
  | SB | SH | SW
  | BEQ | BNE | BLT | BGE | BLTU | BGEU
  | JAL | JALR
  | LUI | AUIPC
  deriving DecidableEq, Repr

/-- An instruction with its operands. Branch and jump offsets are the 13-bit and 21-bit values of R65 and R67, whose
low bit is 0 (WellFormed.lean); `imm20` is word[31:12] (R66); `shamt` is word[24:20] (R120). -/
inductive Instr where
  -- register-register ALU, R format (40_register_alu.md)
  | add (rd rs1 rs2 : Reg)
  | sub (rd rs1 rs2 : Reg)
  | sll (rd rs1 rs2 : Reg)
  | slt (rd rs1 rs2 : Reg)
  | sltu (rd rs1 rs2 : Reg)
  | xor (rd rs1 rs2 : Reg)
  | srl (rd rs1 rs2 : Reg)
  | sra (rd rs1 rs2 : Reg)
  | or (rd rs1 rs2 : Reg)
  | and (rd rs1 rs2 : Reg)
  -- register-immediate ALU, I format (41_immediate_alu.md)
  | addi (rd rs1 : Reg) (imm : BitVec 12)
  | slli (rd rs1 : Reg) (shamt : BitVec 5)
  | slti (rd rs1 : Reg) (imm : BitVec 12)
  | sltiu (rd rs1 : Reg) (imm : BitVec 12)
  | xori (rd rs1 : Reg) (imm : BitVec 12)
  | srli (rd rs1 : Reg) (shamt : BitVec 5)
  | srai (rd rs1 : Reg) (shamt : BitVec 5)
  | ori (rd rs1 : Reg) (imm : BitVec 12)
  | andi (rd rs1 : Reg) (imm : BitVec 12)
  -- loads, I format (42_loads.md)
  | lb (rd rs1 : Reg) (imm : BitVec 12)
  | lh (rd rs1 : Reg) (imm : BitVec 12)
  | lw (rd rs1 : Reg) (imm : BitVec 12)
  | lbu (rd rs1 : Reg) (imm : BitVec 12)
  | lhu (rd rs1 : Reg) (imm : BitVec 12)
  -- stores, S format (43_stores.md)
  | sb (rs2 rs1 : Reg) (imm : BitVec 12)
  | sh (rs2 rs1 : Reg) (imm : BitVec 12)
  | sw (rs2 rs1 : Reg) (imm : BitVec 12)
  -- branches, B format (44_branches.md)
  | beq (rs1 rs2 : Reg) (off : BitVec 13)
  | bne (rs1 rs2 : Reg) (off : BitVec 13)
  | blt (rs1 rs2 : Reg) (off : BitVec 13)
  | bge (rs1 rs2 : Reg) (off : BitVec 13)
  | bltu (rs1 rs2 : Reg) (off : BitVec 13)
  | bgeu (rs1 rs2 : Reg) (off : BitVec 13)
  -- jumps, J and I format (45_jumps.md)
  | jal (rd : Reg) (off : BitVec 21)
  | jalr (rd rs1 : Reg) (imm : BitVec 12)
  -- upper immediates, U format (46_upper_immediate.md)
  | lui (rd : Reg) (imm20 : BitVec 20)
  | auipc (rd : Reg) (imm20 : BitVec 20)
  deriving DecidableEq, Repr

/-- The row of spec/opcode_table.json an instruction belongs to. -/
def Instr.mnemonic : Instr → Mnemonic
  | .add _ _ _ => .ADD
  | .sub _ _ _ => .SUB
  | .sll _ _ _ => .SLL
  | .slt _ _ _ => .SLT
  | .sltu _ _ _ => .SLTU
  | .xor _ _ _ => .XOR
  | .srl _ _ _ => .SRL
  | .sra _ _ _ => .SRA
  | .or _ _ _ => .OR
  | .and _ _ _ => .AND
  | .addi _ _ _ => .ADDI
  | .slli _ _ _ => .SLLI
  | .slti _ _ _ => .SLTI
  | .sltiu _ _ _ => .SLTIU
  | .xori _ _ _ => .XORI
  | .srli _ _ _ => .SRLI
  | .srai _ _ _ => .SRAI
  | .ori _ _ _ => .ORI
  | .andi _ _ _ => .ANDI
  | .lb _ _ _ => .LB
  | .lh _ _ _ => .LH
  | .lw _ _ _ => .LW
  | .lbu _ _ _ => .LBU
  | .lhu _ _ _ => .LHU
  | .sb _ _ _ => .SB
  | .sh _ _ _ => .SH
  | .sw _ _ _ => .SW
  | .beq _ _ _ => .BEQ
  | .bne _ _ _ => .BNE
  | .blt _ _ _ => .BLT
  | .bge _ _ _ => .BGE
  | .bltu _ _ _ => .BLTU
  | .bgeu _ _ _ => .BGEU
  | .jal _ _ => .JAL
  | .jalr _ _ _ => .JALR
  | .lui _ _ => .LUI
  | .auipc _ _ => .AUIPC

end Sys2Proof
end

