-- ==== Sys2Proof/WellFormed.lean ====
section
/-! DEFINITION. Which instruction terms stand for a word. The types already bound every register index (R20), shift
amount (R120) and immediate field; what is left is that branch and jump offsets are even (R65, R67). -/

namespace Sys2Proof

/-- The term is one that a 32-bit word encodes: a branch or jump offset has its low bit 0 (R65, R67). -/
def Instr.wf : Instr → Bool
  | .beq _ _ off => !off.getLsbD 0
  | .bne _ _ off => !off.getLsbD 0
  | .blt _ _ off => !off.getLsbD 0
  | .bge _ _ off => !off.getLsbD 0
  | .bltu _ _ off => !off.getLsbD 0
  | .bgeu _ _ off => !off.getLsbD 0
  | .jal _ off => !off.getLsbD 0
  | .add _ _ _ => true
  | .sub _ _ _ => true
  | .sll _ _ _ => true
  | .slt _ _ _ => true
  | .sltu _ _ _ => true
  | .xor _ _ _ => true
  | .srl _ _ _ => true
  | .sra _ _ _ => true
  | .or _ _ _ => true
  | .and _ _ _ => true
  | .addi _ _ _ => true
  | .slli _ _ _ => true
  | .slti _ _ _ => true
  | .sltiu _ _ _ => true
  | .xori _ _ _ => true
  | .srli _ _ _ => true
  | .srai _ _ _ => true
  | .ori _ _ _ => true
  | .andi _ _ _ => true
  | .lb _ _ _ => true
  | .lh _ _ _ => true
  | .lw _ _ _ => true
  | .lbu _ _ _ => true
  | .lhu _ _ _ => true
  | .sb _ _ _ => true
  | .sh _ _ _ => true
  | .sw _ _ _ => true
  | .jalr _ _ _ => true
  | .lui _ _ => true
  | .auipc _ _ => true

end Sys2Proof
end

