-- ==== Sys2Proof/Decode.lean ====
section
/-! DEFINITION. 30_encoding.md: the six fields of every word (R61), the five immediates (R63 to R67), the decoder
(R70, R73, R75), and after it the encoder written from the same tables (R62). Numeric opcode and funct values are
those of R72 and R73 (the spec marks them as general knowledge, D1). -/

namespace Sys2Proof

/-! ### Fields (R61) -/

/-- word[6:0]. -/
def opcode (w : Word) : BitVec 7 := w.extractLsb' 0 7

/-- word[11:7], as a register index. -/
def rdField (w : Word) : Reg := (w.extractLsb' 7 5).toFin

/-- word[14:12]. -/
def funct3 (w : Word) : BitVec 3 := w.extractLsb' 12 3

/-- word[19:15], as a register index. -/
def rs1Field (w : Word) : Reg := (w.extractLsb' 15 5).toFin

/-- word[24:20], as a register index. -/
def rs2Field (w : Word) : Reg := (w.extractLsb' 20 5).toFin

/-- word[31:25]. -/
def funct7 (w : Word) : BitVec 7 := w.extractLsb' 25 7

/-- The shift amount of SLLI, SRLI and SRAI: word[24:20] (R120). -/
def shamtField (w : Word) : BitVec 5 := w.extractLsb' 20 5

/-! ### Raw immediates: the bits a word gives, put together before any extension -/

/-- word[31:20] (R63). -/
def iField (w : Word) : BitVec 12 := w.extractLsb' 20 12

/-- {word[31:25], word[11:7]} (R64). -/
def sField (w : Word) : BitVec 12 := w.extractLsb' 25 7 ++ w.extractLsb' 7 5

/-- {word[31], word[7], word[30:25], word[11:8], 0} (R65). -/
def bField (w : Word) : BitVec 13 :=
  BitVec.cast rfl
    (w.extractLsb' 31 1 ++ w.extractLsb' 7 1 ++ w.extractLsb' 25 6 ++ w.extractLsb' 8 4 ++ 0#1)

/-- word[31:12] (R66). -/
def uField (w : Word) : BitVec 20 := w.extractLsb' 12 20

/-- `j21` = {word[31], word[19:12], word[20], word[30:21], 0} (R67). -/
def jField (w : Word) : BitVec 21 :=
  BitVec.cast rfl
    (w.extractLsb' 31 1 ++ w.extractLsb' 12 8 ++ w.extractLsb' 20 1 ++ w.extractLsb' 21 10 ++ 0#1)

/-! ### The 32-bit container (R63 to R68, R71) -/

/-- The document's `sign_extend(value, bit_width)` into the 32-bit container (R11). -/
def signExtendTo32 (value : Imm) (bitWidth : Nat) : Imm :=
  (value.setWidth bitWidth).signExtend 32

/-- I-immediate (R63). -/
def iContainer (f : BitVec 12) : Imm := f.signExtend 32

/-- S-immediate (R64). -/
def sContainer (f : BitVec 12) : Imm := f.signExtend 32

/-- B-immediate (R65). -/
def bContainer (f : BitVec 13) : Imm := f.signExtend 32

/-- U-immediate: {word[31:12], 12'b0} (R66). -/
def uContainer (f : BitVec 20) : Imm := f ++ 0#12

/-- J-immediate: no sign extension unless `P_JAL_SEXT` (R67). -/
def jContainer (jalSext : Bool) (f : BitVec 21) : Imm :=
  if jalSext then f.signExtend 32 else f.setWidth 32

/-! ### Major opcodes and immediate classes (R72) -/

/-- Register-register ALU. -/
abbrev opcOp : BitVec 7 := 0b0110011#7
/-- Register-immediate ALU. -/
abbrev opcOpImm : BitVec 7 := 0b0010011#7
/-- Loads. -/
abbrev opcLoad : BitVec 7 := 0b0000011#7
/-- Stores. -/
abbrev opcStore : BitVec 7 := 0b0100011#7
/-- Branches. -/
abbrev opcBranch : BitVec 7 := 0b1100011#7
/-- Jump and link. -/
abbrev opcJal : BitVec 7 := 0b1101111#7
/-- Indirect jump. -/
abbrev opcJalr : BitVec 7 := 0b1100111#7
/-- Load upper. -/
abbrev opcLui : BitVec 7 := 0b0110111#7
/-- Add upper to pc. -/
abbrev opcAuipc : BitVec 7 := 0b0010111#7
/-- Environment: decoded with an I-immediate, never executed (R74, R194). -/
abbrev opcEnvironment : BitVec 7 := 0b1110011#7

/-- The immediate class an opcode selects; `none` is R68's "no class", where the immediate is 0. -/
inductive ImmClass where
  | i | s | b | u | j | none
  deriving DecidableEq, Repr

/-- R72's class column. The register-register class has no immediate (R68). -/
def immClass (opc : BitVec 7) : ImmClass :=
  match opc with
  | 0b0010011#7 => .i
  | 0b0000011#7 => .i
  | 0b1100111#7 => .i
  | 0b1110011#7 => .i
  | 0b0100011#7 => .s
  | 0b1100011#7 => .b
  | 0b0110111#7 => .u
  | 0b0010111#7 => .u
  | 0b1101111#7 => .j
  | _ => .none

/-- The decoded immediate of any word (R63 to R68). -/
def immediate (jalSext : Bool) (w : Word) : Imm :=
  match immClass (opcode w) with
  | .i => iContainer (iField w)
  | .s => sContainer (sField w)
  | .b => bContainer (bField w)
  | .u => uContainer (uField w)
  | .j => jContainer jalSext (jField w)
  | .none => 0

/-! ### Dispatch on (opcode, funct3, funct7) (R73) -/

/-- What a word means: one of the 37 instructions, or `unrecognized` by name (R70, R74, R75). -/
inductive Variant where
  /-- The word matches one row of R73. -/
  | instr (i : Instr)
  /-- The word matches no row of R73: R190 says what happens. -/
  | unrecognized
  deriving DecidableEq, Repr

/-- Opcode 0110011 (R73, R100): funct7 is matched whole (D13). -/
def decodeOp (w : Word) : Variant :=
  match funct3 w, funct7 w with
  | 0b000#3, 0b0000000#7 => .instr (.add (rdField w) (rs1Field w) (rs2Field w))
  | 0b000#3, 0b0100000#7 => .instr (.sub (rdField w) (rs1Field w) (rs2Field w))
  | 0b001#3, 0b0000000#7 => .instr (.sll (rdField w) (rs1Field w) (rs2Field w))
  | 0b010#3, 0b0000000#7 => .instr (.slt (rdField w) (rs1Field w) (rs2Field w))
  | 0b011#3, 0b0000000#7 => .instr (.sltu (rdField w) (rs1Field w) (rs2Field w))
  | 0b100#3, 0b0000000#7 => .instr (.xor (rdField w) (rs1Field w) (rs2Field w))
  | 0b101#3, 0b0000000#7 => .instr (.srl (rdField w) (rs1Field w) (rs2Field w))
  | 0b101#3, 0b0100000#7 => .instr (.sra (rdField w) (rs1Field w) (rs2Field w))
  | 0b110#3, 0b0000000#7 => .instr (.or (rdField w) (rs1Field w) (rs2Field w))
  | 0b111#3, 0b0000000#7 => .instr (.and (rdField w) (rs1Field w) (rs2Field w))
  | _, _ => .unrecognized

/-- Opcode 0010011 (R73, R120): only the shifts look at word[31:25] (D12, D15). -/
def decodeOpImm (w : Word) : Variant :=
  match funct3 w with
  | 0b000#3 => .instr (.addi (rdField w) (rs1Field w) (iField w))
  | 0b001#3 =>
    match funct7 w with
    | 0b0000000#7 => .instr (.slli (rdField w) (rs1Field w) (shamtField w))
    | _ => .unrecognized
  | 0b010#3 => .instr (.slti (rdField w) (rs1Field w) (iField w))
  | 0b011#3 => .instr (.sltiu (rdField w) (rs1Field w) (iField w))
  | 0b100#3 => .instr (.xori (rdField w) (rs1Field w) (iField w))
  | 0b101#3 =>
    match funct7 w with
    | 0b0000000#7 => .instr (.srli (rdField w) (rs1Field w) (shamtField w))
    | 0b0100000#7 => .instr (.srai (rdField w) (rs1Field w) (shamtField w))
    | _ => .unrecognized
  | 0b110#3 => .instr (.ori (rdField w) (rs1Field w) (iField w))
  | 0b111#3 => .instr (.andi (rdField w) (rs1Field w) (iField w))
  | _ => .unrecognized

/-- Opcode 0000011 (R73, R192): funct3 011, 110 and 111 are unrecognized. -/
def decodeLoad (w : Word) : Variant :=
  match funct3 w with
  | 0b000#3 => .instr (.lb (rdField w) (rs1Field w) (iField w))
  | 0b001#3 => .instr (.lh (rdField w) (rs1Field w) (iField w))
  | 0b010#3 => .instr (.lw (rdField w) (rs1Field w) (iField w))
  | 0b100#3 => .instr (.lbu (rdField w) (rs1Field w) (iField w))
  | 0b101#3 => .instr (.lhu (rdField w) (rs1Field w) (iField w))
  | _ => .unrecognized

/-- Opcode 0100011 (R73, R192): funct3 011 and 100 to 111 are unrecognized. -/
def decodeStore (w : Word) : Variant :=
  match funct3 w with
  | 0b000#3 => .instr (.sb (rs2Field w) (rs1Field w) (sField w))
  | 0b001#3 => .instr (.sh (rs2Field w) (rs1Field w) (sField w))
  | 0b010#3 => .instr (.sw (rs2Field w) (rs1Field w) (sField w))
  | _ => .unrecognized

/-- Opcode 1100011 (R73, R192): funct3 010 and 011 are unrecognized. -/
def decodeBranch (w : Word) : Variant :=
  match funct3 w with
  | 0b000#3 => .instr (.beq (rs1Field w) (rs2Field w) (bField w))
  | 0b001#3 => .instr (.bne (rs1Field w) (rs2Field w) (bField w))
  | 0b100#3 => .instr (.blt (rs1Field w) (rs2Field w) (bField w))
  | 0b101#3 => .instr (.bge (rs1Field w) (rs2Field w) (bField w))
  | 0b110#3 => .instr (.bltu (rs1Field w) (rs2Field w) (bField w))
  | 0b111#3 => .instr (.bgeu (rs1Field w) (rs2Field w) (bField w))
  | _ => .unrecognized

/-- Opcode 1100111 (R73, R172): only funct3 000 (D16). -/
def decodeJalr (w : Word) : Variant :=
  match funct3 w with
  | 0b000#3 => .instr (.jalr (rdField w) (rs1Field w) (iField w))
  | _ => .unrecognized

/-- The semantic variant of a word (R73): total on every word (R75), and every word outside the 37 rows, the
environment class among them, is `unrecognized` (R74). -/
def variantOf (w : Word) : Variant :=
  match opcode w with
  | 0b0110011#7 => decodeOp w
  | 0b0010011#7 => decodeOpImm w
  | 0b0000011#7 => decodeLoad w
  | 0b0100011#7 => decodeStore w
  | 0b1100011#7 => decodeBranch w
  | 0b1101111#7 => .instr (.jal (rdField w) (jField w))
  | 0b1100111#7 => decodeJalr w
  | 0b0110111#7 => .instr (.lui (rdField w) (uField w))
  | 0b0010111#7 => .instr (.auipc (rdField w) (uField w))
  | _ => .unrecognized

/-- The decoder's output (R70): the six fields, the immediate container and the variant. It lives within one step and
is no part of `State` (R32). -/
structure DecodedInstruction where
  opcode : BitVec 7
  rd : Reg
  rs1 : Reg
  rs2 : Reg
  funct3 : BitVec 3
  funct7 : BitVec 7
  imm : Imm
  variant : Variant
  deriving DecidableEq, Repr

/-- `decode(word)`: it reads the word and `P_JAL_SEXT`, and nothing else (R70). -/
def decode (jalSext : Bool) (w : Word) : DecodedInstruction where
  opcode := opcode w
  rd := rdField w
  rs1 := rs1Field w
  rs2 := rs2Field w
  funct3 := funct3 w
  funct7 := funct7 w
  imm := immediate jalSext w
  variant := variantOf w

/-! ### Words as bytes (R46, R60) -/

/-- {b3, b2, b1, b0}: the byte at the lowest address is the least significant (R60). -/
def assembleWord (b0 b1 b2 b3 : Byte) : Word := BitVec.cast rfl (b3 ++ b2 ++ b1 ++ b0)

/-- Byte `i` of a word, as it lies in memory (R46, R60). -/
def wordByte (w : Word) (i : Nat) : Byte := w.extractLsb' (8 * i) 8

/-- The four bytes of a word, lowest address first. -/
def layOutWord (w : Word) : List Byte := [wordByte w 0, wordByte w 1, wordByte w 2, wordByte w 3]

/-- Decode from the front of a byte list: the variant and the bytes after it; `none` where fewer than the four bytes
of an instruction are there (R60, R76). -/
def decodeBytes : List Byte → Option (Variant × List Byte)
  | b0 :: b1 :: b2 :: b3 :: rest => some (variantOf (assembleWord b0 b1 b2 b3), rest)
  | _ => none

/-- The instruction of a variant, if it is one. -/
def Variant.instr? : Variant → Option Instr
  | .instr i => some i
  | .unrecognized => none

/-- The instruction read from an instruction whose low `nbits` bits are `w` and whose other bits are 0, laid out in
memory order and given to the decoder. -/
def decodeTableWord (nbits w : Nat) : Option Instr :=
  match decodeBytes (layOutWord (BitVec.ofNat 32 (w % 2 ^ nbits))) with
  | some (v, _) => v.instr?
  | none => none

/-! ### The encoder (R62, R72, R73) -/

/-- A register index as its 5-bit field (R61). -/
def regBits (r : Reg) : BitVec 5 := BitVec.ofFin r

/-- R format: funct7, rs2, rs1, funct3, rd, opcode. The `rs2` place is given as 5 bits, since the shift-immediates
hold their amount there (R120). -/
def packR (f7 : BitVec 7) (rs2 : BitVec 5) (rs1 : Reg) (f3 : BitVec 3) (rd : Reg) (opc : BitVec 7) : Word :=
  BitVec.cast rfl (f7 ++ rs2 ++ regBits rs1 ++ f3 ++ regBits rd ++ opc)

/-- I format: imm[11:0], rs1, funct3, rd, opcode. -/
def packI (imm : BitVec 12) (rs1 : Reg) (f3 : BitVec 3) (rd : Reg) (opc : BitVec 7) : Word :=
  BitVec.cast rfl (imm ++ regBits rs1 ++ f3 ++ regBits rd ++ opc)

/-- S format: imm[11:5], rs2, rs1, funct3, imm[4:0], opcode. -/
def packS (imm : BitVec 12) (rs2 rs1 : Reg) (f3 : BitVec 3) (opc : BitVec 7) : Word :=
  BitVec.cast rfl
    (imm.extractLsb' 5 7 ++ regBits rs2 ++ regBits rs1 ++ f3 ++ imm.extractLsb' 0 5 ++ opc)

/-- B format: imm[12], imm[10:5], rs2, rs1, funct3, imm[4:1], imm[11], opcode. -/
def packB (off : BitVec 13) (rs2 rs1 : Reg) (f3 : BitVec 3) (opc : BitVec 7) : Word :=
  BitVec.cast rfl
    (off.extractLsb' 12 1 ++ off.extractLsb' 5 6 ++ regBits rs2 ++ regBits rs1 ++ f3 ++
      off.extractLsb' 1 4 ++ off.extractLsb' 11 1 ++ opc)

/-- U format: imm[31:12], rd, opcode. -/
def packU (imm20 : BitVec 20) (rd : Reg) (opc : BitVec 7) : Word :=
  BitVec.cast rfl (imm20 ++ regBits rd ++ opc)

/-- J format: imm[20], imm[10:1], imm[11], imm[19:12], rd, opcode. -/
def packJ (off : BitVec 21) (rd : Reg) (opc : BitVec 7) : Word :=
  BitVec.cast rfl
    (off.extractLsb' 20 1 ++ off.extractLsb' 1 10 ++ off.extractLsb' 11 1 ++ off.extractLsb' 12 8 ++
      regBits rd ++ opc)

/-- The word of a well-formed instruction (R62, R73). An odd branch or jump offset has no word: its low bit is
lost. DESIGN CHOICE: notes/assumptions/5.md. -/
def encode : Instr → Word
  | .add rd rs1 rs2 => packR 0b0000000 (regBits rs2) rs1 0b000 rd opcOp
  | .sub rd rs1 rs2 => packR 0b0100000 (regBits rs2) rs1 0b000 rd opcOp
  | .sll rd rs1 rs2 => packR 0b0000000 (regBits rs2) rs1 0b001 rd opcOp
  | .slt rd rs1 rs2 => packR 0b0000000 (regBits rs2) rs1 0b010 rd opcOp
  | .sltu rd rs1 rs2 => packR 0b0000000 (regBits rs2) rs1 0b011 rd opcOp
  | .xor rd rs1 rs2 => packR 0b0000000 (regBits rs2) rs1 0b100 rd opcOp
  | .srl rd rs1 rs2 => packR 0b0000000 (regBits rs2) rs1 0b101 rd opcOp
  | .sra rd rs1 rs2 => packR 0b0100000 (regBits rs2) rs1 0b101 rd opcOp
  | .or rd rs1 rs2 => packR 0b0000000 (regBits rs2) rs1 0b110 rd opcOp
  | .and rd rs1 rs2 => packR 0b0000000 (regBits rs2) rs1 0b111 rd opcOp
  | .addi rd rs1 imm => packI imm rs1 0b000 rd opcOpImm
  | .slli rd rs1 shamt => packR 0b0000000 shamt rs1 0b001 rd opcOpImm
  | .slti rd rs1 imm => packI imm rs1 0b010 rd opcOpImm
  | .sltiu rd rs1 imm => packI imm rs1 0b011 rd opcOpImm
  | .xori rd rs1 imm => packI imm rs1 0b100 rd opcOpImm
  | .srli rd rs1 shamt => packR 0b0000000 shamt rs1 0b101 rd opcOpImm
  | .srai rd rs1 shamt => packR 0b0100000 shamt rs1 0b101 rd opcOpImm
  | .ori rd rs1 imm => packI imm rs1 0b110 rd opcOpImm
  | .andi rd rs1 imm => packI imm rs1 0b111 rd opcOpImm
  | .lb rd rs1 imm => packI imm rs1 0b000 rd opcLoad
  | .lh rd rs1 imm => packI imm rs1 0b001 rd opcLoad
  | .lw rd rs1 imm => packI imm rs1 0b010 rd opcLoad
  | .lbu rd rs1 imm => packI imm rs1 0b100 rd opcLoad
  | .lhu rd rs1 imm => packI imm rs1 0b101 rd opcLoad
  | .sb rs2 rs1 imm => packS imm rs2 rs1 0b000 opcStore
  | .sh rs2 rs1 imm => packS imm rs2 rs1 0b001 opcStore
  | .sw rs2 rs1 imm => packS imm rs2 rs1 0b010 opcStore
  | .beq rs1 rs2 off => packB off rs2 rs1 0b000 opcBranch
  | .bne rs1 rs2 off => packB off rs2 rs1 0b001 opcBranch
  | .blt rs1 rs2 off => packB off rs2 rs1 0b100 opcBranch
  | .bge rs1 rs2 off => packB off rs2 rs1 0b101 opcBranch
  | .bltu rs1 rs2 off => packB off rs2 rs1 0b110 opcBranch
  | .bgeu rs1 rs2 off => packB off rs2 rs1 0b111 opcBranch
  | .jal rd off => packJ off rd opcJal
  | .jalr rd rs1 imm => packI imm rs1 0b000 rd opcJalr
  | .lui rd imm20 => packU imm20 rd opcLui
  | .auipc rd imm20 => packU imm20 rd opcAuipc

/-! ### The rows of spec/opcode_table.json, digit for digit -/

/-- A row's "match". -/
def Mnemonic.rowMatch : Mnemonic → Word
  | .ADD => 0x00000033
  | .SUB => 0x40000033
  | .SLL => 0x00001033
  | .SLT => 0x00002033
  | .SLTU => 0x00003033
  | .XOR => 0x00004033
  | .SRL => 0x00005033
  | .SRA => 0x40005033
  | .OR => 0x00006033
  | .AND => 0x00007033
  | .ADDI => 0x00000013
  | .SLLI => 0x00001013
  | .SLTI => 0x00002013
  | .SLTIU => 0x00003013
  | .XORI => 0x00004013
  | .SRLI => 0x00005013
  | .SRAI => 0x40005013
  | .ORI => 0x00006013
  | .ANDI => 0x00007013
  | .LB => 0x00000003
  | .LH => 0x00001003
  | .LW => 0x00002003
  | .LBU => 0x00004003
  | .LHU => 0x00005003
  | .SB => 0x00000023
  | .SH => 0x00001023
  | .SW => 0x00002023
  | .BEQ => 0x00000063
  | .BNE => 0x00001063
  | .BLT => 0x00004063
  | .BGE => 0x00005063
  | .BLTU => 0x00006063
  | .BGEU => 0x00007063
  | .JAL => 0x0000006F
  | .JALR => 0x00000067
  | .LUI => 0x00000037
  | .AUIPC => 0x00000017

/-- A row's "mask". -/
def Mnemonic.rowMask : Mnemonic → Word
  | .ADD | .SUB | .SLL | .SLT | .SLTU | .XOR | .SRL | .SRA | .OR | .AND => 0xFE00707F
  | .SLLI | .SRLI | .SRAI => 0xFE00707F
  | .ADDI | .SLTI | .SLTIU | .XORI | .ORI | .ANDI => 0x0000707F
  | .LB | .LH | .LW | .LBU | .LHU => 0x0000707F
  | .SB | .SH | .SW => 0x0000707F
  | .BEQ | .BNE | .BLT | .BGE | .BLTU | .BGEU => 0x0000707F
  | .JALR => 0x0000707F
  | .JAL | .LUI | .AUIPC => 0x0000007F

end Sys2Proof
end

