-- ==== Sys2Proof/Config.lean ====
section
/-! DEFINITION. The parameters the source leaves open (00_scope.md R8). Each is an argument of the model: the four
switches stand in `State` (10_state.md R35 lists them there), the entry PC and the boot image are arguments of the
host operations (Machine/Session.lean, Machine/Boot.lean), so that a statement over all states holds under every
setting. -/

namespace Sys2Proof

/-- The four configuration switches of R8. They are fixed for a run, and reset leaves them as they are (R29, R230). -/
structure Config where
  /-- `P_STRICT`: an unrecognized word stops the core (true) or is a no-op (false). R190, D6. -/
  strict : Bool
  /-- `P_JAL_SEXT`: the jump immediate is sign-extended from bit 20 (true) or not (false). R67, D3. -/
  jalSext : Bool
  /-- `P_JALR_LINK_FIRST`: JALR writes `rd` before it reads `rs1` (true) or after (false). R172, D4. -/
  jalrLinkFirst : Bool
  /-- `P_SELF_TARGET_ADVANCES`: a transfer to its own address falls through (true) or stays (false). R78, D5. -/
  selfTargetAdvances : Bool
  deriving DecidableEq, Repr

/-- The defaults of R8. `P_STRICT` has no default in the spec: `true` is the setting the spec's own vectors use
(R196, D6). DESIGN CHOICE, notes/assumptions/1.md. -/
def Config.default : Config :=
  { strict := true, jalSext := false, jalrLinkFirst := true, selfTargetAdvances := false }

/-- `P_ENTRY_PC`'s default (R8, R26). -/
def defaultEntry : Addr := 0

/-- `P_IMAGE`: the boot image, a byte buffer and its load address (R8, R53, R232). -/
structure Image where
  base : Addr
  bytes : List Byte
  deriving DecidableEq, Repr

end Sys2Proof
end

