-- ==== Sys2Proof/Machine/State.lean ====
section
/-! DEFINITION. The whole state of the core (10_state.md R35: "Nothing else is state"), the reasons a step can stop,
and the state after reset (70_reset_and_hazards.md R230). -/

namespace Sys2Proof.Machine

/-- The memory image (R33): cells at strictly rising addresses below 2^64, none holding the 0 that an unlisted address
reads as (R41). Ops.lean states this form as `Memory.wf`. DESIGN CHOICE of representation: notes/assumptions/3.md. -/
abbrev Memory := List Host.Cell

/-- The run status (R31). -/
inductive RunStatus where
  /-- The core steps. -/
  | running
  /-- An illegal-instruction stop: the offending PC and word (R201, R202). It lasts until reset. -/
  | illegal (pc : Addr) (word : Word)
  deriving DecidableEq, Repr

/-- The state table of R35. -/
structure State where
  /-- `x0` to `x31` (R20). Slot 0 is never written and its contents never read: `State.x` and `State.setX`
  (Ops.lean) hard-wire `x0` to zero (R21, R22). DESIGN CHOICE of representation: notes/assumptions/4.md. -/
  regs : Vector RegVal 32
  /-- The program counter (R25). -/
  pc : Addr
  /-- The memory image, for fetch and data alike (R40). -/
  mem : Memory
  /-- The run status (R31). -/
  status : RunStatus
  /-- The configuration switches, fixed per run (R29, R35). DEDUCED: notes/assumptions/9.md. -/
  cfg : Config
  deriving DecidableEq, Repr

/-- The reasons a step stops with a fault: THERE ARE NONE. The one exceptional event of the core, IllegalInstruction
(R200), is a next state with `status = Illegal(pc, word)` (R201), no address faults (R41, R54) and no trap exists
(R205). Safe: nothing is left out, since the spec names no other stop. -/
inductive Fault
  deriving DecidableEq, Repr

/-- The reasons the model declines. -/
inductive Refusal where
  /-- An instruction of the opcode table without a meaning yet, raised by an arm of `exec` only. Safe. No arm raises
  it now. -/
  | notModelled (mnemonic : String)
  /-- The host's `load` after the first step, raised by `Session.load` only, never by a step: "a model should refuse
  it" (R233, D28). Safe. -/
  | loadAfterFirstStep
  deriving DecidableEq, Repr

/-- Reset, or construction, with the entry point `entry` (R230): every register 0, `pc` at the entry point, every
memory byte 0, `status = Running`. The configuration is the instance's own. -/
def State.resetAt (cfg : Config) (entry : Addr) : State where
  regs := Vector.replicate 32 0
  pc := entry
  mem := []
  status := .running
  cfg := cfg

/-- The machine right after reset at the default entry point (R26, R230), under the default configuration (R8; for
`P_STRICT` see notes/assumptions/1.md). -/
def State.reset : State := State.resetAt Config.default defaultEntry

end Sys2Proof.Machine
end

