-- ==== Sys2Proof/Machine/Ops.lean ====
section
/-! DEFINITION. The named operations over memory (20_memory.md), registers (R21, R22), the program counter (R27, R78)
and the run status (R201). -/

namespace Sys2Proof.Machine

/-! ### The memory image: `get` and `set` (R41, R42) -/

/-- The byte listed at a key, or the 0 that an unlisted address reads as (R41). -/
def Memory.lookup : Memory → Nat → Byte
  | [], _ => 0
  | (a, b) :: rest, k => if a = k then b else Memory.lookup rest k

/-- Drop what is listed at a key. -/
def Memory.erase (m : Memory) (k : Nat) : Memory := m.filter (fun c => c.1 != k)

/-- Put a cell in front of the first higher key. -/
def Memory.place : Memory → Nat → Byte → Memory
  | [], k, v => [(k, v)]
  | (a, b) :: rest, k, v => if k < a then (k, v) :: (a, b) :: rest else (a, b) :: Memory.place rest k v

/-- `get(addr)` (R41). -/
def Memory.get (m : Memory) (a : Addr) : Byte := m.lookup a.toNat

/-- `set(addr, byte)` (R42). A byte of 0 is not listed: an absent byte and a byte written as 0 are the same state
(R33, D21). -/
def Memory.set (m : Memory) (a : Addr) (v : Byte) : Memory :=
  if v = 0 then m.erase a.toNat else (m.erase a.toNat).place a.toNat v

/-- The canonical form: keys strictly rising and below 2^64, no listed 0. -/
abbrev Memory.wf (m : Memory) : Prop :=
  m.Pairwise (fun c d => c.1 < d.1) ∧ ∀ c ∈ m, c.1 < 2 ^ 64 ∧ c.2 ≠ 0

/-! ### Multi-byte accesses, little-endian, addresses modulo 2^64 (R43 to R46) -/

/-- The loop of R43: the first `n` bytes at `addr`, byte `i` at bit `8i`. -/
def gatherBytes (m : Memory) (addr : Addr) : Nat → RegVal
  | 0 => 0
  | n + 1 => gatherBytes m addr n ||| ((m.get (addr + BitVec.ofNat 64 n)).setWidth 64 <<< (8 * n))

/-- `MemRead(addr, n)` for `n` in 1, 2, 4 (R43, R50). -/
def memRead (m : Memory) (addr : Addr) (n : Nat) : BitVec (8 * n) :=
  (gatherBytes m addr n).setWidth (8 * n)

/-- Byte `i` of a value: `(v >> 8i) & 0xFF` (R44). -/
def byteOf (v : RegVal) (i : Nat) : Byte := (v >>> (8 * i)).setWidth 8

/-- `MemWrite(addr, n, v)` for `n` in 1, 2, 4 (R44, R50): byte `i` goes to `addr + i`, in the order of the loop. -/
def memWrite (m : Memory) (addr : Addr) (v : RegVal) : Nat → Memory
  | 0 => m
  | n + 1 => (memWrite m addr v n).set (addr + BitVec.ofNat 64 n) (byteOf v n)

/-- Write a byte buffer at an address, as the host's `load` does (R212, R233). -/
def loadBytes (m : Memory) (base : Addr) : List Byte → Memory
  | [] => m
  | b :: rest => loadBytes (m.set base b) (base + 1) rest

/-! ### Registers -/

/-- `x[i]`: register 0 reads 0 whatever was written (R12, R21). -/
def State.x (s : State) (r : Reg) : RegVal := if r = 0 then 0 else s.regs[r.val]

/-- `x[i] <- v`: a write to register 0 is discarded (R12, R22). -/
def State.setX (s : State) (r : Reg) (v : RegVal) : State :=
  if r = 0 then s else { s with regs := s.regs.set r.val v }

/-! ### Memory of a state -/

/-- `M[a]` (R13). -/
def State.byte (s : State) (a : Addr) : Byte := s.mem.get a

/-- The state with its memory image replaced. -/
def State.setMem (s : State) (m : Memory) : State := { s with mem := m }

/-- Fetch: the little-endian word at `[pc, pc+3]`; it does not move `pc` (R60). -/
def State.fetch (s : State) : Word := memRead s.mem s.pc 4

/-! ### The end of a step (R27, R78) -/

/-- The next PC where the instruction transfers no control: `pc + 4` modulo 2^64 (R76, R78). -/
def State.advance (s : State) : State := { s with pc := s.pc + 4 }

/-- The next PC where the instruction executed `pc <- target`. A target equal to `pc` falls through under
`P_SELF_TARGET_ADVANCES` (R78, D5). -/
def State.transfer (s : State) (target : Addr) : State :=
  { s with pc := if s.cfg.selfTargetAdvances && target == s.pc then s.pc + 4 else target }

/-! ### The one exceptional event (R200 to R206)

There is no trap entry (R205) and no trap return (R206): taking IllegalInstruction stops the core where it is, and
only the host's reset (`State.resetAt`) leads out of it. -/

/-- `raise IllegalInstruction(pc, word)`: no register, no memory byte and not `pc` changes, and
`status <- Illegal(pc, word)` (R14, R201). -/
def State.raiseIllegalInstruction (s : State) (word : Word) : State :=
  { s with status := .illegal s.pc word }

/-- A `step()` while `status = Illegal(..)`: the core takes no step, nothing changes (R31, R78, R201 (c), R212).
DEDUCED: notes/assumptions/2.md. -/
def stoppedStep (s : State) : Host.Outcome State Fault Refusal := .next s

end Sys2Proof.Machine
end

