-- ==== Sys2Proof/Machine/Operands.lean ====
section
/-! DEFINITION. The operand forms: immediates at register width (30_encoding.md R69), the one addressing mode (R140,
R150), shift amounts (R100, R120), branch and jump targets and the link value (R160, R170). -/

namespace Sys2Proof.Machine

/-- `imm64 = sext_64(imm)`: container bit 31 fills bits 63:32 (R69, D2). -/
def imm64 (c : Imm) : RegVal := c.signExtend 64

/-- The I-immediate at 64 bits (R63, R69). -/
def immI (f : BitVec 12) : RegVal := imm64 (iContainer f)

/-- The S-immediate at 64 bits (R64, R69). -/
def immS (f : BitVec 12) : RegVal := imm64 (sContainer f)

/-- The B-immediate at 64 bits (R65, R69). -/
def immB (f : BitVec 13) : RegVal := imm64 (bContainer f)

/-- The U-immediate at 64 bits (R66, R69, R180). -/
def immU (f : BitVec 20) : RegVal := imm64 (uContainer f)

/-- The J-immediate at 64 bits; `P_JAL_SEXT` decides its container (R67, R69). -/
def immJ (cfg : Config) (f : BitVec 21) : RegVal := imm64 (jContainer cfg.jalSext f)

/-- A load's address: `x[rs1] + imm64` modulo 2^64 (R45, R140). -/
def State.loadAddress (s : State) (rs1 : Reg) (imm : BitVec 12) : Addr := s.x rs1 + immI imm

/-- A store's address: `x[rs1] + imm64` modulo 2^64 (R45, R150). -/
def State.storeAddress (s : State) (rs1 : Reg) (imm : BitVec 12) : Addr := s.x rs1 + immS imm

/-- The amount of a register shift: bits 5:0 of the operand (R100, D11). -/
def regShiftAmount (v : RegVal) : Nat := (v.extractLsb' 0 6).toNat

/-- The amount of a shift-immediate: 0 to 31 (R120, D12). -/
def immShiftAmount (shamt : BitVec 5) : Nat := shamt.toNat

/-- A branch's target, relative to its own address (R160). -/
def State.branchTarget (s : State) (off : BitVec 13) : Addr := s.pc + immB off

/-- JAL's target, relative to its own address (R171). -/
def State.jalTarget (s : State) (off : BitVec 21) : Addr := s.pc + immJ s.cfg off

/-- JALR's target: `(x[rs1] + imm64) & ~1`, from the registers of the state given (R172). -/
def State.jalrTarget (s : State) (rs1 : Reg) (imm : BitVec 12) : Addr := (s.x rs1 + immI imm) &&& ~~~1#64

/-- The return address a jump writes: `pc + 4` modulo 2^64 (R170). -/
def State.link (s : State) : RegVal := s.pc + 4

end Sys2Proof.Machine
end

