-- ==== Sys2Proof/Machine/Branches.lean ====
section
/-! DEFINITION. 44_branches.md: BEQ BNE BLT BGE BLTU BGEU (R160 to R167). -/

namespace Sys2Proof.Machine

/-- The shape of the family (R160): taken, `pc <- pc + imm64`; not taken, no PC write and so `pc + 4` (R78). Nothing
else changes. -/
def branchStep (taken : Bool) (off : BitVec 13) (s : State) : Host.Outcome State Fault Refusal :=
  .next (if taken then s.transfer (s.branchTarget off) else s.advance)

/-- R161: taken if `x[rs1] = x[rs2]`. -/
def execBeq (rs1 rs2 : Reg) (off : BitVec 13) (s : State) : Host.Outcome State Fault Refusal :=
  branchStep (s.x rs1 == s.x rs2) off s

/-- R162: taken if `x[rs1] != x[rs2]`. -/
def execBne (rs1 rs2 : Reg) (off : BitVec 13) (s : State) : Host.Outcome State Fault Refusal :=
  branchStep (s.x rs1 != s.x rs2) off s

/-- R163: taken if `s(x[rs1]) < s(x[rs2])`. -/
def execBlt (rs1 rs2 : Reg) (off : BitVec 13) (s : State) : Host.Outcome State Fault Refusal :=
  branchStep (ltSigned (s.x rs1) (s.x rs2)) off s

/-- R164: taken if `s(x[rs1]) >= s(x[rs2])`. -/
def execBge (rs1 rs2 : Reg) (off : BitVec 13) (s : State) : Host.Outcome State Fault Refusal :=
  branchStep (!ltSigned (s.x rs1) (s.x rs2)) off s

/-- R165: taken if `u(x[rs1]) < u(x[rs2])`. -/
def execBltu (rs1 rs2 : Reg) (off : BitVec 13) (s : State) : Host.Outcome State Fault Refusal :=
  branchStep (ltUnsigned (s.x rs1) (s.x rs2)) off s

/-- R166: taken if `u(x[rs1]) >= u(x[rs2])`. -/
def execBgeu (rs1 rs2 : Reg) (off : BitVec 13) (s : State) : Host.Outcome State Fault Refusal :=
  branchStep (!ltUnsigned (s.x rs1) (s.x rs2)) off s

end Sys2Proof.Machine
end

