-- ==== Sys2Proof/Machine/RegisterAlu.lean ====
section
/-! DEFINITION. 40_register_alu.md: ADD SUB SLL SLT SLTU XOR SRL SRA OR AND (R100 to R110). -/

namespace Sys2Proof.Machine

/-- The shape of the family (R100): both sources are read, then `x[rd]` is written, then `pc + 4`. -/
def aluStep (rd : Reg) (v : RegVal) (s : State) : Host.Outcome State Fault Refusal :=
  .next (s.setX rd v).advance

/-- R101: `x[rd] <- x[rs1] + x[rs2]` modulo 2^64. -/
def execAdd (rd rs1 rs2 : Reg) (s : State) : Host.Outcome State Fault Refusal :=
  aluStep rd (s.x rs1 + s.x rs2) s

/-- R102: `x[rd] <- x[rs1] - x[rs2]` modulo 2^64. -/
def execSub (rd rs1 rs2 : Reg) (s : State) : Host.Outcome State Fault Refusal :=
  aluStep rd (s.x rs1 - s.x rs2) s

/-- R103: `x[rd] <- x[rs1] << x[rs2][5:0]`. -/
def execSll (rd rs1 rs2 : Reg) (s : State) : Host.Outcome State Fault Refusal :=
  aluStep rd (s.x rs1 <<< regShiftAmount (s.x rs2)) s

/-- R104: `x[rd] <- bool(s(x[rs1]) < s(x[rs2]))`. -/
def execSlt (rd rs1 rs2 : Reg) (s : State) : Host.Outcome State Fault Refusal :=
  aluStep rd (boolVal (ltSigned (s.x rs1) (s.x rs2))) s

/-- R105: `x[rd] <- bool(u(x[rs1]) < u(x[rs2]))`. -/
def execSltu (rd rs1 rs2 : Reg) (s : State) : Host.Outcome State Fault Refusal :=
  aluStep rd (boolVal (ltUnsigned (s.x rs1) (s.x rs2))) s

/-- R106: `x[rd] <- x[rs1] ^ x[rs2]`. -/
def execXor (rd rs1 rs2 : Reg) (s : State) : Host.Outcome State Fault Refusal :=
  aluStep rd (s.x rs1 ^^^ s.x rs2) s

/-- R107: `x[rd] <- x[rs1] >>u x[rs2][5:0]`. -/
def execSrl (rd rs1 rs2 : Reg) (s : State) : Host.Outcome State Fault Refusal :=
  aluStep rd (s.x rs1 >>> regShiftAmount (s.x rs2)) s

/-- R108: `x[rd] <- x[rs1] >>s x[rs2][5:0]`. -/
def execSra (rd rs1 rs2 : Reg) (s : State) : Host.Outcome State Fault Refusal :=
  aluStep rd ((s.x rs1).sshiftRight (regShiftAmount (s.x rs2))) s

/-- R109: `x[rd] <- x[rs1] | x[rs2]`. -/
def execOr (rd rs1 rs2 : Reg) (s : State) : Host.Outcome State Fault Refusal :=
  aluStep rd (s.x rs1 ||| s.x rs2) s

/-- R110: `x[rd] <- x[rs1] & x[rs2]`. -/
def execAnd (rd rs1 rs2 : Reg) (s : State) : Host.Outcome State Fault Refusal :=
  aluStep rd (s.x rs1 &&& s.x rs2) s

end Sys2Proof.Machine
end

