-- ==== Sys2Proof/Machine/ImmediateAlu.lean ====
section
/-! DEFINITION. 41_immediate_alu.md: ADDI SLLI SLTI SLTIU XORI SRLI SRAI ORI ANDI (R120 to R129), with `imm64` (R69) or
the 5-bit shift amount as the second operand. -/

namespace Sys2Proof.Machine

/-- R121: `x[rd] <- x[rs1] + imm64` modulo 2^64. -/
def execAddi (rd rs1 : Reg) (imm : BitVec 12) (s : State) : Host.Outcome State Fault Refusal :=
  aluStep rd (s.x rs1 + immI imm) s

/-- R122: `x[rd] <- x[rs1] << shamt`. -/
def execSlli (rd rs1 : Reg) (shamt : BitVec 5) (s : State) : Host.Outcome State Fault Refusal :=
  aluStep rd (s.x rs1 <<< immShiftAmount shamt) s

/-- R123: `x[rd] <- bool(s(x[rs1]) < s(imm64))`. -/
def execSlti (rd rs1 : Reg) (imm : BitVec 12) (s : State) : Host.Outcome State Fault Refusal :=
  aluStep rd (boolVal (ltSigned (s.x rs1) (immI imm))) s

/-- R124: `x[rd] <- bool(u(x[rs1]) < u(imm64))`: sign-extended first, then compared as unsigned. -/
def execSltiu (rd rs1 : Reg) (imm : BitVec 12) (s : State) : Host.Outcome State Fault Refusal :=
  aluStep rd (boolVal (ltUnsigned (s.x rs1) (immI imm))) s

/-- R125: `x[rd] <- x[rs1] ^ imm64`. -/
def execXori (rd rs1 : Reg) (imm : BitVec 12) (s : State) : Host.Outcome State Fault Refusal :=
  aluStep rd (s.x rs1 ^^^ immI imm) s

/-- R126: `x[rd] <- x[rs1] >>u shamt`. -/
def execSrli (rd rs1 : Reg) (shamt : BitVec 5) (s : State) : Host.Outcome State Fault Refusal :=
  aluStep rd (s.x rs1 >>> immShiftAmount shamt) s

/-- R127: `x[rd] <- x[rs1] >>s shamt`. -/
def execSrai (rd rs1 : Reg) (shamt : BitVec 5) (s : State) : Host.Outcome State Fault Refusal :=
  aluStep rd ((s.x rs1).sshiftRight (immShiftAmount shamt)) s

/-- R128: `x[rd] <- x[rs1] | imm64`. -/
def execOri (rd rs1 : Reg) (imm : BitVec 12) (s : State) : Host.Outcome State Fault Refusal :=
  aluStep rd (s.x rs1 ||| immI imm) s

/-- R129: `x[rd] <- x[rs1] & imm64`. -/
def execAndi (rd rs1 : Reg) (imm : BitVec 12) (s : State) : Host.Outcome State Fault Refusal :=
  aluStep rd (s.x rs1 &&& immI imm) s

end Sys2Proof.Machine
end

