-- ==== Sys2Proof/Machine/Jumps.lean ====
section
/-! DEFINITION. 45_jumps.md: JAL and JALR (R170 to R172). -/

namespace Sys2Proof.Machine

/-- R171: `x[rd] <- pc + 4; pc <- pc + imm64`. -/
def execJal (rd : Reg) (off : BitVec 21) (s : State) : Host.Outcome State Fault Refusal :=
  .next ((s.setX rd s.link).transfer (s.jalTarget off))

/-- R172: `x[rd] <- pc + 4` and `pc <- (x[rs1] + imm64) & ~1`. Under `P_JALR_LINK_FIRST` the base is read from the
registers after the link write, otherwise before it (D4). -/
def execJalr (rd rs1 : Reg) (imm : BitVec 12) (s : State) : Host.Outcome State Fault Refusal :=
  let linked := s.setX rd s.link
  let base := if s.cfg.jalrLinkFirst then linked else s
  .next (linked.transfer (base.jalrTarget rs1 imm))

end Sys2Proof.Machine
end

