-- ==== Sys2Proof/Machine/Loads.lean ====
section
/-! DEFINITION. 42_loads.md: LB LH LW LBU LHU (R140 to R145). -/

namespace Sys2Proof.Machine

/-- The shape of the family (R140): the address comes from the old `x[rs1]`, `n` bytes are read at any alignment,
widened to 64 bits by `widen` (D19), and written to `x[rd]`; then `pc + 4`. -/
def loadStep (n : Nat) (widen : BitVec (8 * n) → RegVal) (rd rs1 : Reg) (imm : BitVec 12) (s : State) :
    Host.Outcome State Fault Refusal :=
  .next (s.setX rd (widen (memRead s.mem (s.loadAddress rs1 imm) n))).advance

/-- R141: one byte, sign-extended. -/
def execLb (rd rs1 : Reg) (imm : BitVec 12) (s : State) : Host.Outcome State Fault Refusal :=
  loadStep 1 (·.signExtend 64) rd rs1 imm s

/-- R142: two bytes, sign-extended. -/
def execLh (rd rs1 : Reg) (imm : BitVec 12) (s : State) : Host.Outcome State Fault Refusal :=
  loadStep 2 (·.signExtend 64) rd rs1 imm s

/-- R143: four bytes, sign-extended. -/
def execLw (rd rs1 : Reg) (imm : BitVec 12) (s : State) : Host.Outcome State Fault Refusal :=
  loadStep 4 (·.signExtend 64) rd rs1 imm s

/-- R144: one byte, zero-extended. -/
def execLbu (rd rs1 : Reg) (imm : BitVec 12) (s : State) : Host.Outcome State Fault Refusal :=
  loadStep 1 (·.setWidth 64) rd rs1 imm s

/-- R145: two bytes, zero-extended. -/
def execLhu (rd rs1 : Reg) (imm : BitVec 12) (s : State) : Host.Outcome State Fault Refusal :=
  loadStep 2 (·.setWidth 64) rd rs1 imm s

end Sys2Proof.Machine
end

