-- ==== Sys2Proof/Machine/Stores.lean ====
section
/-! DEFINITION. 43_stores.md: SB SH SW (R150 to R153). -/

namespace Sys2Proof.Machine

/-- The shape of the family (R150): the low `n` bytes of `x[rs2]` go to `ea .. ea + n - 1`, byte `i` to `ea + i`; no
register is written; then `pc + 4`. -/
def storeStep (n : Nat) (rs2 rs1 : Reg) (imm : BitVec 12) (s : State) : Host.Outcome State Fault Refusal :=
  .next (s.setMem (memWrite s.mem (s.storeAddress rs1 imm) (s.x rs2) n)).advance

/-- R151: one byte. -/
def execSb (rs2 rs1 : Reg) (imm : BitVec 12) (s : State) : Host.Outcome State Fault Refusal :=
  storeStep 1 rs2 rs1 imm s

/-- R152: two bytes. -/
def execSh (rs2 rs1 : Reg) (imm : BitVec 12) (s : State) : Host.Outcome State Fault Refusal :=
  storeStep 2 rs2 rs1 imm s

/-- R153: four bytes. -/
def execSw (rs2 rs1 : Reg) (imm : BitVec 12) (s : State) : Host.Outcome State Fault Refusal :=
  storeStep 4 rs2 rs1 imm s

end Sys2Proof.Machine
end

