-- ==== Sys2Proof/Machine/UpperImmediate.lean ====
section
/-! DEFINITION. 46_upper_immediate.md: LUI and AUIPC (R180 to R182). -/

namespace Sys2Proof.Machine

/-- R181: `x[rd] <- imm64`. -/
def execLui (rd : Reg) (imm20 : BitVec 20) (s : State) : Host.Outcome State Fault Refusal :=
  .next (s.setX rd (immU imm20)).advance

/-- R182: `x[rd] <- pc + imm64` modulo 2^64, with the instruction's own address. -/
def execAuipc (rd : Reg) (imm20 : BitVec 20) (s : State) : Host.Outcome State Fault Refusal :=
  .next (s.setX rd (s.pc + immU imm20)).advance

end Sys2Proof.Machine
end

