-- ==== Sys2Proof/Machine/Unrecognized.lean ====
section
/-! DEFINITION. 47_unrecognized.md: every word that is none of the 37 instructions (R190 to R195). -/

namespace Sys2Proof.Machine

/-- R190: in strict mode the step raises IllegalInstruction(pc, word) (R201); in compatibility mode the word is a
no-op, and the next PC is `pc + 4`. -/
def execUnrecognized (word : Word) (s : State) : Host.Outcome State Fault Refusal :=
  .next (if s.cfg.strict then s.raiseIllegalInstruction word else s.advance)

end Sys2Proof.Machine
end

