-- ==== Sys2Proof/Machine/Step.lean ====
section
/-! DEFINITION. One step of the core (30_encoding.md R78). -/

namespace Sys2Proof.Machine

/-- R78: when `status = Running`, fetch, decode, execute and advance; when `status = Illegal(..)` no step is taken. -/
def step (s : State) : Host.Outcome State Fault Refusal :=
  match s.status with
  | .illegal _ _ => stoppedStep s
  | .running =>
    match (decode s.cfg.jalSext s.fetch).variant with
    | .instr i => exec i s
    | .unrecognized => execUnrecognized s.fetch s

/-- The state with the 32-bit word whose low `nbits` bits are `w` stored at `pc`, where `step` fetches, and with the
core running, without which it fetches nothing (R60, R78). Nothing else changes. DESIGN CHOICE:
notes/assumptions/6.md. -/
def State.withFetchWord (s : State) (nbits w : Nat) : State :=
  { s with
    mem := memWrite s.mem s.pc (BitVec.ofNat 64 (w % 2 ^ nbits)) 4
    status := .running }

end Sys2Proof.Machine
end

