-- ==== Sys2Proof/Machine/Assembly.lean ====
section
/-! DEFINITION. The assembler's view (30_encoding.md R80, R81): register names, the text of an instruction, and the
pseudo-instructions with their expansions. Spellings only: no step reads anything here (R23, D26). -/

namespace Sys2Proof.Machine

/-- `x0` to `x31` (R80). -/
def regName (r : Reg) : String := "x" ++ toString r.val

/-- The ABI aliases of R80, `x0` first. `x8` is also spelled `fp`. -/
def abiNames : List String :=
  ["zero", "ra", "sp", "gp", "tp", "t0", "t1", "t2"] ++ ["s0", "s1", "a0", "a1", "a2", "a3", "a4", "a5"] ++
    ["a6", "a7", "s2", "s3", "s4", "s5", "s6", "s7"] ++ ["s8", "s9", "s10", "s11", "t3", "t4", "t5", "t6"]

/-- `op rd, rs1, rs2` (R80). -/
def asmR (op : String) (a b c : Reg) : String :=
  op ++ " " ++ regName a ++ ", " ++ regName b ++ ", " ++ regName c

/-- `op rd, rs1, imm` and `op rs1, rs2, offset` (R80). -/
def asmRI (op : String) (a b : Reg) (n : Int) : String :=
  op ++ " " ++ regName a ++ ", " ++ regName b ++ ", " ++ toString n

/-- `op r, imm(base)` (R80). -/
def asmMem (op : String) (r : Reg) (n : Int) (base : Reg) : String :=
  op ++ " " ++ regName r ++ ", " ++ toString n ++ "(" ++ regName base ++ ")"

/-- `op rd, n` (R80). -/
def asmRN (op : String) (rd : Reg) (n : Int) : String := op ++ " " ++ regName rd ++ ", " ++ toString n

/-- The text of an instruction (R80). A jump's offset is the one it has under the configuration (R67).
DESIGN CHOICE: notes/assumptions/12.md. -/
def asmText (cfg : Config) : Instr → String
  | .add rd rs1 rs2 => asmR "add" rd rs1 rs2
  | .sub rd rs1 rs2 => asmR "sub" rd rs1 rs2
  | .sll rd rs1 rs2 => asmR "sll" rd rs1 rs2
  | .slt rd rs1 rs2 => asmR "slt" rd rs1 rs2
  | .sltu rd rs1 rs2 => asmR "sltu" rd rs1 rs2
  | .xor rd rs1 rs2 => asmR "xor" rd rs1 rs2
  | .srl rd rs1 rs2 => asmR "srl" rd rs1 rs2
  | .sra rd rs1 rs2 => asmR "sra" rd rs1 rs2
  | .or rd rs1 rs2 => asmR "or" rd rs1 rs2
  | .and rd rs1 rs2 => asmR "and" rd rs1 rs2
  | .addi rd rs1 imm => asmRI "addi" rd rs1 imm.toInt
  | .slli rd rs1 shamt => asmRI "slli" rd rs1 shamt.toNat
  | .slti rd rs1 imm => asmRI "slti" rd rs1 imm.toInt
  | .sltiu rd rs1 imm => asmRI "sltiu" rd rs1 imm.toInt
  | .xori rd rs1 imm => asmRI "xori" rd rs1 imm.toInt
  | .srli rd rs1 shamt => asmRI "srli" rd rs1 shamt.toNat
  | .srai rd rs1 shamt => asmRI "srai" rd rs1 shamt.toNat
  | .ori rd rs1 imm => asmRI "ori" rd rs1 imm.toInt
  | .andi rd rs1 imm => asmRI "andi" rd rs1 imm.toInt
  | .lb rd rs1 imm => asmMem "lb" rd imm.toInt rs1
  | .lh rd rs1 imm => asmMem "lh" rd imm.toInt rs1
  | .lw rd rs1 imm => asmMem "lw" rd imm.toInt rs1
  | .lbu rd rs1 imm => asmMem "lbu" rd imm.toInt rs1
  | .lhu rd rs1 imm => asmMem "lhu" rd imm.toInt rs1
  | .sb rs2 rs1 imm => asmMem "sb" rs2 imm.toInt rs1
  | .sh rs2 rs1 imm => asmMem "sh" rs2 imm.toInt rs1
  | .sw rs2 rs1 imm => asmMem "sw" rs2 imm.toInt rs1
  | .beq rs1 rs2 off => asmRI "beq" rs1 rs2 off.toInt
  | .bne rs1 rs2 off => asmRI "bne" rs1 rs2 off.toInt
  | .blt rs1 rs2 off => asmRI "blt" rs1 rs2 off.toInt
  | .bge rs1 rs2 off => asmRI "bge" rs1 rs2 off.toInt
  | .bltu rs1 rs2 off => asmRI "bltu" rs1 rs2 off.toInt
  | .bgeu rs1 rs2 off => asmRI "bgeu" rs1 rs2 off.toInt
  | .jal rd off => asmRN "jal" rd (immJ cfg off).toInt
  | .jalr rd rs1 imm => asmMem "jalr" rd imm.toInt rs1
  | .lui rd imm20 => asmRN "lui" rd imm20.toNat
  | .auipc rd imm20 => asmRN "auipc" rd imm20.toNat

/-- The pseudo-instructions of R81. -/
inductive Pseudo where
  | nop
  | mv (rd rs : Reg)
  | not (rd rs : Reg)
  | neg (rd rs : Reg)
  | seqz (rd rs : Reg)
  | snez (rd rs : Reg)
  | sltz (rd rs : Reg)
  | sgtz (rd rs : Reg)
  | beqz (rs : Reg) (off : BitVec 13)
  | bnez (rs : Reg) (off : BitVec 13)
  | blez (rs : Reg) (off : BitVec 13)
  | bgez (rs : Reg) (off : BitVec 13)
  | bltz (rs : Reg) (off : BitVec 13)
  | bgtz (rs : Reg) (off : BitVec 13)
  | bgt (a b : Reg) (off : BitVec 13)
  | ble (a b : Reg) (off : BitVec 13)
  | bgtu (a b : Reg) (off : BitVec 13)
  | bleu (a b : Reg) (off : BitVec 13)
  | j (off : BitVec 21)
  | jal (off : BitVec 21)
  | jr (rs : Reg)
  | jalr (rs : Reg)
  | ret
  | li (rd : Reg) (v : RegVal)
  | call (off : RegVal)
  | tail (off : RegVal)
  deriving DecidableEq, Repr

/-- `lo = v[11:0]` of R81, as the 12-bit immediate whose `imm64` is `sext_64(v[11:0])`. -/
def loPart (v : RegVal) : BitVec 12 := v.extractLsb' 0 12

/-- `hi = ((v - lo) >> 12)[19:0]` of R81. -/
def hiPart (v : RegVal) : BitVec 20 := (v - immI (loPart v)).extractLsb' 12 20

/-- R81's condition for a LUI and ADDI pair to give `v`: `v - lo` lies in -2^31 .. 2^31 - 4096. -/
def hiLoFits (v : RegVal) : Bool :=
  decide (-2 ^ 31 ≤ (v - immI (loPart v)).toInt) && decide ((v - immI (loPart v)).toInt ≤ 2 ^ 31 - 4096)

/-- R81's condition for a single ADDI: -2048 .. 2047. -/
def fitsImm12 (v : RegVal) : Bool := decide (-2048 ≤ v.toInt) && decide (v.toInt ≤ 2047)

/-- The expansions of R81; `none` where R81 gives none. `hi` and `lo` of `call` and `tail` are split as `li`'s are:
DEDUCED, notes/assumptions/8.md. -/
def Pseudo.expand : Pseudo → Option (List Instr)
  | .nop => some [.addi 0 0 0]
  | .mv rd rs => some [.addi rd rs 0]
  | .not rd rs => some [.xori rd rs (-1)]
  | .neg rd rs => some [.sub rd 0 rs]
  | .seqz rd rs => some [.sltiu rd rs 1]
  | .snez rd rs => some [.sltu rd 0 rs]
  | .sltz rd rs => some [.slt rd rs 0]
  | .sgtz rd rs => some [.slt rd 0 rs]
  | .beqz rs off => some [.beq rs 0 off]
  | .bnez rs off => some [.bne rs 0 off]
  | .blez rs off => some [.bge 0 rs off]
  | .bgez rs off => some [.bge rs 0 off]
  | .bltz rs off => some [.blt rs 0 off]
  | .bgtz rs off => some [.blt 0 rs off]
  | .bgt a b off => some [.blt b a off]
  | .ble a b off => some [.bge b a off]
  | .bgtu a b off => some [.bltu b a off]
  | .bleu a b off => some [.bgeu b a off]
  | .j off => some [.jal 0 off]
  | .jal off => some [.jal 1 off]
  | .jr rs => some [.jalr 0 rs 0]
  | .jalr rs => some [.jalr 1 rs 0]
  | .ret => some [.jalr 0 1 0]
  | .li rd v =>
    if fitsImm12 v then some [.addi rd 0 (loPart v)]
    else if hiLoFits v then some [.lui rd (hiPart v), .addi rd rd (loPart v)]
    else none
  | .call off => if hiLoFits off then some [.auipc 1 (hiPart off), .jalr 1 1 (loPart off)] else none
  | .tail off => if hiLoFits off then some [.auipc 6 (hiPart off), .jalr 0 6 (loPart off)] else none

end Sys2Proof.Machine
end

