-- ==== Sys2Proof/Machine/Session.lean ====
section
/-! DEFINITION. The host interface (60_exceptions.md R212, R213; 70_reset_and_hazards.md R230, R233). A session is one
instance of the core as its host holds it. Every operation acts between steps only. -/

namespace Sys2Proof.Machine

/-- An instance and the one thing its host must remember: whether a step has been taken since reset, after which
`load` is refused (R212, R233). It is no state of the core (R35). DEDUCED: notes/assumptions/7.md. -/
structure Session where
  core : State
  stepped : Bool
  deriving DecidableEq, Repr

/-- The host stores `bytes[i]` at `(base + i) mod 2^64` (R212). -/
def State.loadImage (s : State) (base : Addr) (bytes : List Byte) : State :=
  s.setMem (loadBytes s.mem base bytes)

/-- Construct an instance (R230). -/
def Session.construct (cfg : Config) (entry : Addr) : Session :=
  { core := State.resetAt cfg entry, stepped := false }

/-- `reset(entry)`: the same as constructing a fresh instance of the same configuration (R230, D29). -/
def Session.reset (h : Session) (entry : Addr) : Session := Session.construct h.core.cfg entry

/-- `load(base, bytes)`: allowed only before the first step; after it, refused (R212, R233, D28). -/
def Session.load (h : Session) (base : Addr) (bytes : List Byte) : Host.Outcome Session Fault Refusal :=
  if h.stepped then .refused .loadAfterFirstStep
  else .next { h with core := h.core.loadImage base bytes }

/-- `step()`: one step of R78 if `status = Running`, else nothing (R212). The host reads the new status from
`core.status`. -/
def Session.step (h : Session) : Host.Outcome Session Fault Refusal :=
  match h.core.status with
  | .illegal _ _ => .next h
  | .running =>
    match Sys2Proof.Machine.step h.core with
    | .next c => .next { core := c, stepped := true }
    | .fault r => .fault r
    | .refused r => .refused r

/-- What `run` gives back: the session after it, with its status, and the number of instructions completed (R212). -/
structure RunResult where
  session : Session
  completed : Nat
  deriving DecidableEq, Repr

/-- `run(n)`, with the host's `cancel()` as an input: `some k` is a cancellation that has arrived once `k` instructions
of this run have completed, `none` is no cancellation. Budget and cancellation are checked before each fetch (R204);
a host stop leaves the state after the last complete step (R213); the step that stops the core completes no instruction
and consumes no budget (R212). DEDUCED: notes/assumptions/7.md. -/
def Session.run (h : Session) : Nat → Option Nat → RunResult
  | 0, _ => { session := h, completed := 0 }
  | _ + 1, some 0 => { session := h, completed := 0 }
  | n + 1, cancelAfter =>
    match h.core.status, Session.step h with
    | .running, .next h' =>
      match h'.core.status with
      | .running =>
        let r := Session.run h' n (cancelAfter.map (· - 1))
        { r with completed := r.completed + 1 }
      | .illegal _ _ => { session := h', completed := 0 }
    | _, _ => { session := h, completed := 0 }

/-- The host reads `x[i]` (R212). -/
def Session.readX (h : Session) (r : Reg) : RegVal := h.core.x r

/-- The host reads `pc` (R212). -/
def Session.readPc (h : Session) : Addr := h.core.pc

/-- The host reads `M[a]` (R212). -/
def Session.readByte (h : Session) (a : Addr) : Byte := h.core.byte a

/-- The host reads `status` (R212). -/
def Session.readStatus (h : Session) : RunStatus := h.core.status

/-- The operations of R212 that change a session, as data. -/
inductive HostOp where
  | reset (entry : Addr)
  | load (base : Addr) (bytes : List Byte)
  | step
  | run (budget : Nat) (cancelAfter : Option Nat)
  deriving DecidableEq, Repr

/-- Perform one host operation. -/
def Session.perform (h : Session) : HostOp → Host.Outcome Session Fault Refusal
  | .reset entry => .next (h.reset entry)
  | .load base bytes => h.load base bytes
  | .step => h.step
  | .run budget cancelAfter => .next (h.run budget cancelAfter).session

end Sys2Proof.Machine
end

