-- ==== Sys2Proof/Machine/Boot.lean ====
section
/-! DEFINITION. Boot (70_reset_and_hazards.md R232, R233): how a program comes to run, and the copy contract of the
external loader, which the core never sees (00_scope.md R5 (f)). -/

namespace Sys2Proof.Machine

/-- The boot sequence of R233 up to the first step: `reset(e)`, then `load(base, B)`. -/
def Session.boot (cfg : Config) (entry : Addr) (image : Image) : Host.Outcome Session Fault Refusal :=
  (Session.construct cfg entry).load image.base image.bytes

/-- The loader's failures, before the core runs (R232). -/
inductive LoaderError where
  /-- The destination is too small or the source too short. -/
  | invalidInput
  /-- No boot record exists. -/
  | notFound
  deriving DecidableEq, Repr

/-- What a boot record names: a start block and a sector count. How it is found is outside the spec (R232). -/
structure BootRecord where
  startBlock : Nat
  sectors : Nat
  deriving DecidableEq, Repr

/-- The loader's copy contract (R232): exactly `c * 2048` bytes from byte offset `s * 2048` of the disk image.
DEDUCED: notes/assumptions/11.md. -/
def loaderCopy (disk : List Byte) (capacity : Nat) : Option BootRecord → Except LoaderError (List Byte)
  | none => .error .notFound
  | some r =>
    if capacity < r.sectors * 2048 then .error .invalidInput
    else if disk.length < r.startBlock * 2048 + r.sectors * 2048 then .error .invalidInput
    else .ok ((disk.drop (r.startBlock * 2048)).take (r.sectors * 2048))

end Sys2Proof.Machine
end

