-- ==== Sys2Proof/Safety.lean ====
section
/-! DEFINITION. The terms the claims are stated in: the invariants of a state, what the host can see of it (R212), and
what an instruction of each shape writes and leaves alone. -/

namespace Sys2Proof.Machine

/-! ### Invariants -/

/-- The memory is in canonical form and the slot behind `x0` holds 0 (D21, D33). -/
abbrev State.Inv (s : State) : Prop := s.mem.wf ∧ s.regs[0] = 0

/-- What a stopped core records is what stopped it (R31, R201, R234): `pc` and the word fetched there, an unrecognized
word, in strict mode. -/
def State.StopRecord (s : State) : Prop :=
  ∀ pc word, s.status = .illegal pc word →
    s.pc = pc ∧ s.fetch = word ∧ variantOf word = .unrecognized ∧ s.cfg.strict = true

/-! ### What the host can read (R212) -/

/-- Two states the host cannot tell apart, running under the same configuration. -/
def SameView (s t : State) : Prop :=
  (∀ r, s.x r = t.x r) ∧ s.pc = t.pc ∧ (∀ a, s.byte a = t.byte a) ∧ s.status = t.status ∧ s.cfg = t.cfg

/-! ### Frames: from a state `s` before an instruction to a state `t` after it -/

/-- Every register reads as before. -/
def KeepsRegisters (s t : State) : Prop := ∀ r, t.x r = s.x r

/-- `rd` reads `v`, unless it is `x0`, where nothing is written (R22); every other register reads as before. -/
def WritesRegister (rd : Reg) (v : RegVal) (s t : State) : Prop :=
  ∀ r, t.x r = if r = rd ∧ rd ≠ 0 then v else s.x r

/-- Every byte of memory reads as before. -/
def KeepsMemory (s t : State) : Prop := ∀ a, t.byte a = s.byte a

/-- The run status and the configuration are as before: no event (R200), no write of the parameters (R29). -/
def KeepsRun (s t : State) : Prop := t.status = s.status ∧ t.cfg = s.cfg

/-- `pc` moves to the next word, modulo 2^64 (R76, R78). -/
def FallsThrough (s t : State) : Prop := t.pc.toNat = (s.pc.toNat + 4) % 2 ^ 64

/-- Where a transfer to `target` leaves `pc` (R78): at the target, but past its own word for a transfer to itself
under `P_SELF_TARGET_ADVANCES`. -/
def LandsOn (target : Addr) (s t : State) : Prop :=
  if target = s.pc ∧ s.cfg.selfTargetAdvances = true then FallsThrough s t else t.pc = target

/-- An instruction that writes one register and goes on to the next word. -/
def ComputesInto (rd : Reg) (v : RegVal) (s t : State) : Prop :=
  WritesRegister rd v s t ∧ FallsThrough s t ∧ KeepsMemory s t ∧ KeepsRun s t

/-- A store of the low `n` bytes of `v` at `addr`: byte `i` of the value at `addr + i` modulo 2^64, every other byte as
before (R44). -/
def StoresBytes (n : Nat) (addr : Addr) (v : RegVal) (s t : State) : Prop :=
  (∀ i, i < n → (t.byte (addr + BitVec.ofNat 64 i)).toNat = v.toNat / 256 ^ i % 256) ∧
  ∀ a, (∀ i, i < n → a ≠ addr + BitVec.ofNat 64 i) → t.byte a = s.byte a

/-- An instruction that stores `n` bytes and goes on to the next word. -/
def StoresInto (n : Nat) (addr : Addr) (v : RegVal) (s t : State) : Prop :=
  StoresBytes n addr v s t ∧ FallsThrough s t ∧ KeepsRegisters s t ∧ KeepsRun s t

/-- A conditional branch: on `taken` to the target, otherwise to the next word; nothing else changes (R160). -/
def BranchesTo (taken : Prop) (target : Addr) (s t : State) : Prop :=
  (taken → LandsOn target s t) ∧ (¬ taken → FallsThrough s t) ∧ KeepsRegisters s t ∧ KeepsMemory s t ∧
    KeepsRun s t

/-! ### Immediates as operands -/

/-- The 64-bit immediate the meaning of an instruction uses, for those that have one. -/
def operand64 (cfg : Config) : Instr → Option RegVal
  | .addi _ _ imm | .slti _ _ imm | .sltiu _ _ imm | .xori _ _ imm | .ori _ _ imm | .andi _ _ imm => some (immI imm)
  | .lb _ _ imm | .lh _ _ imm | .lw _ _ imm | .lbu _ _ imm | .lhu _ _ imm => some (immI imm)
  | .sb _ _ imm | .sh _ _ imm | .sw _ _ imm => some (immS imm)
  | .beq _ _ off | .bne _ _ off | .blt _ _ off | .bge _ _ off | .bltu _ _ off | .bgeu _ _ off => some (immB off)
  | .jal _ off => some (immJ cfg off)
  | .jalr _ _ imm => some (immI imm)
  | .lui _ imm20 | .auipc _ imm20 => some (immU imm20)
  | .add _ _ _ | .sub _ _ _ | .sll _ _ _ | .slt _ _ _ | .sltu _ _ _ => none
  | .xor _ _ _ | .srl _ _ _ | .sra _ _ _ | .or _ _ _ | .and _ _ _ => none
  | .slli _ _ _ | .srli _ _ _ | .srai _ _ _ => none

/-! ### Fields and signed readings of a word as numbers -/

/-- word[lo+n-1:lo] as a number (R9). -/
def bitsOf (w : Word) (lo n : Nat) : Nat := w.toNat / 2 ^ lo % 2 ^ n

/-- The two's-complement reading of an `n`-bit number (R10). -/
def signedOf (n v : Nat) : Int := if v < 2 ^ (n - 1) then (v : Int) else (v : Int) - 2 ^ n

/-- `base + offset` modulo 2^64, the offset signed (R45). -/
def addOffset (base : BitVec 64) (offset : Int) : BitVec 64 := BitVec.ofInt 64 (base.toInt + offset)

/-! ### Which words select an instruction (R61, R62, R73): the operands come from the fields of its format -/

/-- R format, opcode 0110011. -/
def SelectsR (f3 : BitVec 3) (f7 : BitVec 7) (mk : Reg → Reg → Reg → Instr) : Prop :=
  ∀ w, opcode w = 0b0110011#7 → funct3 w = f3 → funct7 w = f7 →
    variantOf w = .instr (mk (rdField w) (rs1Field w) (rs2Field w))

/-- I format under a major opcode. -/
def SelectsI (opc : BitVec 7) (f3 : BitVec 3) (mk : Reg → Reg → BitVec 12 → Instr) : Prop :=
  ∀ w, opcode w = opc → funct3 w = f3 → variantOf w = .instr (mk (rdField w) (rs1Field w) (iField w))

/-- A shift-immediate, opcode 0010011. -/
def SelectsShift (f3 : BitVec 3) (f7 : BitVec 7) (mk : Reg → Reg → BitVec 5 → Instr) : Prop :=
  ∀ w, opcode w = 0b0010011#7 → funct3 w = f3 → funct7 w = f7 →
    variantOf w = .instr (mk (rdField w) (rs1Field w) (shamtField w))

/-- S format, opcode 0100011. -/
def SelectsS (f3 : BitVec 3) (mk : Reg → Reg → BitVec 12 → Instr) : Prop :=
  ∀ w, opcode w = 0b0100011#7 → funct3 w = f3 →
    variantOf w = .instr (mk (rs2Field w) (rs1Field w) (sField w))

/-- B format, opcode 1100011. -/
def SelectsB (f3 : BitVec 3) (mk : Reg → Reg → BitVec 13 → Instr) : Prop :=
  ∀ w, opcode w = 0b1100011#7 → funct3 w = f3 →
    variantOf w = .instr (mk (rs1Field w) (rs2Field w) (bField w))

/-- U format under a major opcode. -/
def SelectsU (opc : BitVec 7) (mk : Reg → BitVec 20 → Instr) : Prop :=
  ∀ w, opcode w = opc → variantOf w = .instr (mk (rdField w) (uField w))

/-- J format, opcode 1101111. -/
def SelectsJ (mk : Reg → BitVec 21 → Instr) : Prop :=
  ∀ w, opcode w = 0b1101111#7 → variantOf w = .instr (mk (rdField w) (jField w))

/-! ### Sequences and sessions -/

/-- Instructions run one after another, as an expansion of R81 is. -/
def execAll : List Instr → State → Host.Outcome State Fault Refusal
  | [], s => .next s
  | i :: rest, s =>
    match exec i s with
    | .next t => execAll rest t
    | .fault r => .fault r
    | .refused r => .refused r

/-- What holds of every session: the core's invariants, and a core that has not stepped runs. -/
def Session.Inv (h : Session) : Prop :=
  h.core.Inv ∧ h.core.StopRecord ∧ (h.stepped = false → h.core.status = .running)

end Sys2Proof.Machine
end

