-- ==== Sys2Proof/Certificates/Slice0/Obligations.lean ====
section
/-! DEFINITION. The statements about the model. Results are written with numbers (`toNat`, `toInt`) and byte by byte,
not with the operations the meanings use.

The opcode, funct3 and funct7 values in them are those of R72 and R73, which the spec itself takes from general
knowledge (00_scope.md R2, D1): notes/assumptions/5.md. What rests on a choice of this model says so and names its log
entry. Nothing rests on the default of `P_STRICT` (notes/assumptions/1.md): the statements hold under every setting. -/

open Sys2Proof Sys2Proof.Machine

/-! ### Decoding and encoding (30_encoding.md) -/

/-- R61: the six fields, cut from every word regardless of opcode. -/
def Obligations.FieldsAreCutFromEveryWord : Prop :=
  ∀ (c : Bool) (w : Word),
    (decode c w).opcode.toNat = bitsOf w 0 7 ∧ (decode c w).rd.val = bitsOf w 7 5 ∧
    (decode c w).funct3.toNat = bitsOf w 12 3 ∧ (decode c w).rs1.val = bitsOf w 15 5 ∧
    (decode c w).rs2.val = bitsOf w 20 5 ∧ (decode c w).funct7.toNat = bitsOf w 25 7

/-- R63, R64, R65: the immediates of the I, S and B classes, with their ranges. -/
def Obligations.ImmediatesOfClassesISB : Prop :=
  ∀ (c : Bool) (w : Word),
    (opcode w = 0b0010011#7 ∨ opcode w = 0b0000011#7 ∨ opcode w = 0b1100111#7 ∨ opcode w = 0b1110011#7 →
      (decode c w).imm.toInt = signedOf 12 (bitsOf w 20 12) ∧
      -2048 ≤ (decode c w).imm.toInt ∧ (decode c w).imm.toInt ≤ 2047) ∧
    (opcode w = 0b0100011#7 →
      (decode c w).imm.toInt = signedOf 12 (bitsOf w 25 7 * 2 ^ 5 + bitsOf w 7 5) ∧
      -2048 ≤ (decode c w).imm.toInt ∧ (decode c w).imm.toInt ≤ 2047) ∧
    (opcode w = 0b1100011#7 →
      (decode c w).imm.toInt =
        signedOf 13 (bitsOf w 31 1 * 2 ^ 12 + bitsOf w 7 1 * 2 ^ 11 + bitsOf w 25 6 * 2 ^ 5 + bitsOf w 8 4 * 2) ∧
      -4096 ≤ (decode c w).imm.toInt ∧ (decode c w).imm.toInt ≤ 4094 ∧ (decode c w).imm.toInt % 2 = 0)

/-- R66, R67, R68: the immediates of the U and J classes, and 0 for every word outside the five classes. -/
def Obligations.ImmediatesOfClassesUJAndNone : Prop :=
  ∀ (c : Bool) (w : Word),
    (opcode w = 0b0110111#7 ∨ opcode w = 0b0010111#7 → (decode c w).imm.toNat = bitsOf w 12 20 * 2 ^ 12) ∧
    (opcode w = 0b1101111#7 →
      ∀ j21, j21 = bitsOf w 31 1 * 2 ^ 20 + bitsOf w 12 8 * 2 ^ 12 + bitsOf w 20 1 * 2 ^ 11 + bitsOf w 21 10 * 2 →
        (c = false → (decode c w).imm.toNat = j21) ∧
        (c = true → (decode c w).imm.toInt = signedOf 21 j21) ∧
        (decode c w).imm.toNat % 2 = 0 ∧
        (bitsOf w 31 1 = 0 → (decode true w).imm = (decode false w).imm)) ∧
    (opcode w ≠ 0b0010011#7 → opcode w ≠ 0b0000011#7 → opcode w ≠ 0b1100111#7 → opcode w ≠ 0b1110011#7 →
      opcode w ≠ 0b0100011#7 → opcode w ≠ 0b1100011#7 → opcode w ≠ 0b0110111#7 → opcode w ≠ 0b0010111#7 →
      opcode w ≠ 0b1101111#7 → (decode c w).imm = 0)

/-- R69: an instruction's 64-bit immediate operand is the decoder's container, read as signed. -/
def Obligations.ImmediatesWidenAsSigned : Prop :=
  ∀ (cfg : Config) (w : Word) (i : Instr) (v : RegVal),
    variantOf w = .instr i → operand64 cfg i = some v → v.toInt = (decode cfg.jalSext w).imm.toInt

/-- R73, R74: a word is the instruction of a row of the opcode table exactly if it has the row's match under the row's
mask, and unrecognized exactly if no row has it so. -/
def Obligations.DispatchFollowsTheOpcodeTable : Prop :=
  (∀ (w : Word) (m : Mnemonic),
    (∃ i, variantOf w = .instr i ∧ i.mnemonic = m) ↔ w &&& m.rowMask = m.rowMatch) ∧
  ∀ w : Word, variantOf w = .unrecognized ↔ ∀ m : Mnemonic, w &&& m.rowMask ≠ m.rowMatch

/-- R62, R73: decoding the word of a well-formed instruction gives the instruction back, every operand included. -/
def Obligations.DecodeOfEncodeIsTheInstruction : Prop :=
  ∀ i : Instr, i.wf = true → variantOf (encode i) = .instr i

/-- R62, R73: an instruction a word decodes to is well-formed and is encoded as that word: no bit is dropped. -/
def Obligations.EncodeOfDecodeIsTheWord : Prop :=
  ∀ (w : Word) (i : Instr), variantOf w = .instr i → i.wf = true ∧ encode i = w

/-- A word placed where `step` fetches runs as its instruction, and placing it changes only its four bytes and the run
status. How a word is placed is the model's choice: notes/assumptions/6.md. -/
def Obligations.PlacedWordRunsItsInstruction : Prop :=
  ∀ (i : Instr) (s : State), i.wf = true →
    decodeTableWord 32 (encode i).toNat = some i ∧
    step (s.withFetchWord 32 (encode i).toNat) = exec i (s.withFetchWord 32 (encode i).toNat) ∧
    KeepsRegisters s (s.withFetchWord 32 (encode i).toNat) ∧
    (s.withFetchWord 32 (encode i).toNat).pc = s.pc ∧
    (s.withFetchWord 32 (encode i).toNat).cfg = s.cfg ∧
    (s.withFetchWord 32 (encode i).toNat).status = .running ∧
    ∀ a, (∀ k, k < 4 → a ≠ s.pc + BitVec.ofNat 64 k) → (s.withFetchWord 32 (encode i).toNat).byte a = s.byte a

/-- R192, and every opcode outside the nine of the instructions (R191, R193 to R195). -/
def Obligations.UnrecognizedCombinations : Prop :=
  ∀ w : Word,
    (opcode w = 0b0110011#7 → funct7 w ≠ 0b0000000#7 → funct7 w ≠ 0b0100000#7 → variantOf w = .unrecognized) ∧
    (opcode w = 0b0110011#7 → funct7 w = 0b0100000#7 → funct3 w ≠ 0b000#3 → funct3 w ≠ 0b101#3 →
      variantOf w = .unrecognized) ∧
    (opcode w = 0b0010011#7 → funct3 w = 0b001#3 → funct7 w ≠ 0b0000000#7 → variantOf w = .unrecognized) ∧
    (opcode w = 0b0010011#7 → funct3 w = 0b101#3 → funct7 w ≠ 0b0000000#7 → funct7 w ≠ 0b0100000#7 →
      variantOf w = .unrecognized) ∧
    (opcode w = 0b0000011#7 → funct3 w = 0b011#3 ∨ funct3 w = 0b110#3 ∨ funct3 w = 0b111#3 →
      variantOf w = .unrecognized) ∧
    (opcode w = 0b0100011#7 → funct3 w = 0b011#3 ∨ 4 ≤ (funct3 w).toNat → variantOf w = .unrecognized) ∧
    (opcode w = 0b1100011#7 → funct3 w = 0b010#3 ∨ funct3 w = 0b011#3 → variantOf w = .unrecognized) ∧
    (opcode w = 0b1100111#7 → funct3 w ≠ 0b000#3 → variantOf w = .unrecognized) ∧
    (opcode w ≠ 0b0110011#7 → opcode w ≠ 0b0010011#7 → opcode w ≠ 0b0000011#7 → opcode w ≠ 0b0100011#7 →
      opcode w ≠ 0b1100011#7 → opcode w ≠ 0b1101111#7 → opcode w ≠ 0b1100111#7 → opcode w ≠ 0b0110111#7 →
      opcode w ≠ 0b0010111#7 → variantOf w = .unrecognized)

/-- One word of every family, written out from the spec's encodings (95_test_vectors.md), and what it stands for. -/
def Obligations.SampleWordsDecode : Prop :=
  variantOf 0b00000000010100010000000010010011#32 = .instr (.addi 1 2 5) ∧
  variantOf 0b00000000010100000000000001101111#32 = .instr (.jal 0 2052) ∧
  variantOf 0x402081B3#32 = .instr (.sub 3 1 2) ∧
  variantOf 0x4010D193#32 = .instr (.srai 3 1 1) ∧
  variantOf 0xFFC0A183#32 = .instr (.lw 3 1 (-4)) ∧
  variantOf 0xFE20AFA3#32 = .instr (.sw 2 1 (-1)) ∧
  variantOf 0xFE209CE3#32 = .instr (.bne 1 2 (-8)) ∧
  variantOf 0x010080E7#32 = .instr (.jalr 1 1 16) ∧
  variantOf 0x123451B7#32 = .instr (.lui 3 0x12345) ∧
  variantOf 0xFFFFF197#32 = .instr (.auipc 3 0xFFFFF) ∧
  variantOf 0x00000073#32 = .unrecognized ∧
  variantOf 0x02009193#32 = .unrecognized

/-! ### Registers (10_state.md) -/

/-- R12, R21: register 0 reads 0 in every state, a write to it has no effect, and a write to another register is read
there and nowhere else and touches nothing but the registers. -/
def Obligations.RegisterZeroIsHardwired : Prop :=
  ∀ (s : State) (r : Reg) (v : RegVal),
    s.x 0 = 0 ∧ s.setX 0 v = s ∧ WritesRegister r v s (s.setX r v) ∧
    (s.setX r v).pc = s.pc ∧ (s.setX r v).mem = s.mem ∧ KeepsRun s (s.setX r v)

/-! ### Memory (20_memory.md) -/

/-- R41, R42: after any sequence of `set`s on the empty image, `get` returns the byte last written, or 0. -/
def Obligations.GetReturnsTheLastByteSet : Prop :=
  (∀ (writes : List (Addr × Byte)) (a : Addr),
    (writes.foldl (fun m w => Memory.set m w.1 w.2) []).get a =
      ((writes.reverse.find? (fun w => w.1 == a)).map (·.2)).getD 0) ∧
  ∀ (m : Memory) (a b : Addr) (v : Byte), (m.set a v).get b = if b = a then v else m.get b

/-- R43: `MemRead(addr, n)` for n in 1, 2, 4 is the little-endian value of the bytes at `(addr + i) mod 2^64`. -/
def Obligations.MemReadIsLittleEndian : Prop :=
  ∀ (m : Memory) (addr : Addr) (n : Nat), n = 1 ∨ n = 2 ∨ n = 4 →
    (memRead m addr n).toNat =
      ∑ i ∈ Finset.range n, (m.get (BitVec.ofNat 64 ((addr.toNat + i) % 2 ^ 64))).toNat * 256 ^ i

/-- R44: `MemWrite(addr, n, v)` for n in 1, 2, 4 puts byte `i` of the value at `(addr + i) mod 2^64` and changes no other
byte. -/
def Obligations.MemWriteSpreadsTheBytes : Prop :=
  ∀ (m : Memory) (addr : Addr) (v : RegVal) (n : Nat), n = 1 ∨ n = 2 ∨ n = 4 →
    (∀ i, i < n →
      ((memWrite m addr v n).get (BitVec.ofNat 64 ((addr.toNat + i) % 2 ^ 64))).toNat = v.toNat / 256 ^ i % 256) ∧
    ∀ b, (∀ i, i < n → b ≠ BitVec.ofNat 64 ((addr.toNat + i) % 2 ^ 64)) →
      (memWrite m addr v n).get b = m.get b

/-- R60: the fetched word, its least significant byte at `pc`, with addresses modulo 2^64; four unwritten bytes give
the word 0. -/
def Obligations.FetchIsLittleEndian : Prop :=
  (∀ s : State,
    s.fetch.toNat =
      (s.byte s.pc).toNat + (s.byte (BitVec.ofNat 64 ((s.pc.toNat + 1) % 2 ^ 64))).toNat * 2 ^ 8 +
      (s.byte (BitVec.ofNat 64 ((s.pc.toNat + 2) % 2 ^ 64))).toNat * 2 ^ 16 +
      (s.byte (BitVec.ofNat 64 ((s.pc.toNat + 3) % 2 ^ 64))).toNat * 2 ^ 24) ∧
  ∀ s : State, (∀ i, i < 4 → s.byte (s.pc + BitVec.ofNat 64 i) = 0) →
    s.fetch = 0 ∧ variantOf s.fetch = .unrecognized

/-- R153's round trip, and the same at the other widths: a value stored and loaded again at one address. LW
sign-extends, so its whole register is the signed reading of the word. `x0` reads 0 as ever. -/
def Obligations.StoreThenLoadRoundTrip : Prop :=
  ∀ (s : State) (rd rs1 rs2 : Reg) (imm : BitVec 12),
    (∃ t u, exec (.sw rs2 rs1 imm) s = .next t ∧ exec (.lw rd rs1 imm) t = .next u ∧
      (u.x rd).toInt = (if rd = 0 then 0 else signedOf 32 ((s.x rs2).toNat % 2 ^ 32)) ∧
      (rd ≠ 0 → (u.x rd).toNat % 2 ^ 32 = (s.x rs2).toNat % 2 ^ 32)) ∧
    (∃ t u, exec (.sh rs2 rs1 imm) s = .next t ∧ exec (.lhu rd rs1 imm) t = .next u ∧
      (u.x rd).toNat = if rd = 0 then 0 else (s.x rs2).toNat % 2 ^ 16) ∧
    (∃ t u, exec (.sb rs2 rs1 imm) s = .next t ∧ exec (.lbu rd rs1 imm) t = .next u ∧
      (u.x rd).toNat = if rd = 0 then 0 else (s.x rs2).toNat % 2 ^ 8)

/-- R58, R237: a word stored over the next instruction is what the next fetch reads. -/
def Obligations.StoreIntoTheNextInstructionIsFetched : Prop :=
  ∀ (s : State) (rs2 rs1 : Reg) (imm : BitVec 12), s.storeAddress rs1 imm = s.pc + 4 →
    ∃ t, exec (.sw rs2 rs1 imm) s = .next t ∧ t.pc = s.pc + 4 ∧ t.fetch.toNat = (s.x rs2).toNat % 2 ^ 32

/-- States in canonical form that the host cannot tell apart are equal data (R33, D21, D33). The form is the model's
choice: notes/assumptions/3.md and 4.md. -/
def Obligations.EqualViewsAreEqualStates : Prop :=
  ∀ s t : State, s.Inv → t.Inv → SameView s t → s = t

/-! ### Register-register ALU (40_register_alu.md) -/

/-- R101, R102: ADD and SUB, modulo 2^64. -/
def Obligations.AddAndSubtract : Prop :=
  SelectsR 0b000 0b0000000 .add ∧ SelectsR 0b000 0b0100000 .sub ∧
  ∀ (rd rs1 rs2 : Reg) (s : State),
    (∃ t, exec (.add rd rs1 rs2) s = .next t ∧
      ComputesInto rd (BitVec.ofNat 64 ((s.x rs1).toNat + (s.x rs2).toNat)) s t) ∧
    (∃ t, exec (.sub rd rs1 rs2) s = .next t ∧
      ComputesInto rd (BitVec.ofInt 64 ((s.x rs1).toInt - (s.x rs2).toInt)) s t)

/-- R103, R107, R108: the shifts, by `x[rs2]` modulo 64. SRA rounds the signed quotient down, which is what filling
with copies of bit 63 does. -/
def Obligations.RegisterShifts : Prop :=
  SelectsR 0b001 0b0000000 .sll ∧ SelectsR 0b101 0b0000000 .srl ∧ SelectsR 0b101 0b0100000 .sra ∧
  ∀ (rd rs1 rs2 : Reg) (s : State),
    (∃ t, exec (.sll rd rs1 rs2) s = .next t ∧
      ComputesInto rd (BitVec.ofNat 64 ((s.x rs1).toNat * 2 ^ ((s.x rs2).toNat % 64))) s t) ∧
    (∃ t, exec (.srl rd rs1 rs2) s = .next t ∧
      ComputesInto rd (BitVec.ofNat 64 ((s.x rs1).toNat / 2 ^ ((s.x rs2).toNat % 64))) s t) ∧
    (∃ t, exec (.sra rd rs1 rs2) s = .next t ∧
      ComputesInto rd (BitVec.ofInt 64 ((s.x rs1).toInt / 2 ^ ((s.x rs2).toNat % 64))) s t)

/-- R104, R105: SLT compares as signed, SLTU as unsigned. -/
def Obligations.RegisterComparisons : Prop :=
  SelectsR 0b010 0b0000000 .slt ∧ SelectsR 0b011 0b0000000 .sltu ∧
  ∀ (rd rs1 rs2 : Reg) (s : State),
    (∃ t, exec (.slt rd rs1 rs2) s = .next t ∧
      ComputesInto rd (if (s.x rs1).toInt < (s.x rs2).toInt then 1 else 0) s t) ∧
    (∃ t, exec (.sltu rd rs1 rs2) s = .next t ∧
      ComputesInto rd (if (s.x rs1).toNat < (s.x rs2).toNat then 1 else 0) s t)

/-- R106, R109, R110: XOR, OR and AND, bit by bit. -/
def Obligations.RegisterLogic : Prop :=
  SelectsR 0b100 0b0000000 .xor ∧ SelectsR 0b110 0b0000000 .or ∧ SelectsR 0b111 0b0000000 .and ∧
  ∀ (rd rs1 rs2 : Reg) (s : State),
    (∃ t v, exec (.xor rd rs1 rs2) s = .next t ∧ ComputesInto rd v s t ∧
      ∀ k, k < 64 → v.getLsbD k = ((s.x rs1).getLsbD k != (s.x rs2).getLsbD k)) ∧
    (∃ t v, exec (.or rd rs1 rs2) s = .next t ∧ ComputesInto rd v s t ∧
      ∀ k, k < 64 → v.getLsbD k = ((s.x rs1).getLsbD k || (s.x rs2).getLsbD k)) ∧
    (∃ t v, exec (.and rd rs1 rs2) s = .next t ∧ ComputesInto rd v s t ∧
      ∀ k, k < 64 → v.getLsbD k = ((s.x rs1).getLsbD k && (s.x rs2).getLsbD k))

/-! ### Register-immediate ALU (41_immediate_alu.md) -/

/-- R121: ADDI adds the signed 12-bit immediate, modulo 2^64. -/
def Obligations.AddImmediate : Prop :=
  SelectsI 0b0010011 0b000 .addi ∧
  ∀ (rd rs1 : Reg) (imm : BitVec 12) (s : State),
    ∃ t, exec (.addi rd rs1 imm) s = .next t ∧ ComputesInto rd (addOffset (s.x rs1) imm.toInt) s t

/-- R122, R126, R127: the shift-immediates, by 0 to 31. -/
def Obligations.ImmediateShifts : Prop :=
  SelectsShift 0b001 0b0000000 .slli ∧ SelectsShift 0b101 0b0000000 .srli ∧ SelectsShift 0b101 0b0100000 .srai ∧
  ∀ (rd rs1 : Reg) (shamt : BitVec 5) (s : State),
    (∃ t, exec (.slli rd rs1 shamt) s = .next t ∧
      ComputesInto rd (BitVec.ofNat 64 ((s.x rs1).toNat * 2 ^ shamt.toNat)) s t) ∧
    (∃ t, exec (.srli rd rs1 shamt) s = .next t ∧
      ComputesInto rd (BitVec.ofNat 64 ((s.x rs1).toNat / 2 ^ shamt.toNat)) s t) ∧
    (∃ t, exec (.srai rd rs1 shamt) s = .next t ∧
      ComputesInto rd (BitVec.ofInt 64 ((s.x rs1).toInt / 2 ^ shamt.toNat)) s t)

/-- R123, R124: SLTI compares with the signed immediate; SLTIU with the immediate sign-extended to 64 bits and then
read as unsigned. -/
def Obligations.ImmediateComparisons : Prop :=
  SelectsI 0b0010011 0b010 .slti ∧ SelectsI 0b0010011 0b011 .sltiu ∧
  ∀ (rd rs1 : Reg) (imm : BitVec 12) (s : State),
    (∃ t, exec (.slti rd rs1 imm) s = .next t ∧
      ComputesInto rd (if (s.x rs1).toInt < imm.toInt then 1 else 0) s t) ∧
    (∃ t, exec (.sltiu rd rs1 imm) s = .next t ∧
      ComputesInto rd (if ((s.x rs1).toNat : Int) < imm.toInt % 2 ^ 64 then 1 else 0) s t)

/-- R125, R128, R129: XORI, ORI and ANDI, bit by bit; bits 63:11 of the operand are the immediate's bit 11. -/
def Obligations.ImmediateLogic : Prop :=
  SelectsI 0b0010011 0b100 .xori ∧ SelectsI 0b0010011 0b110 .ori ∧ SelectsI 0b0010011 0b111 .andi ∧
  ∀ (rd rs1 : Reg) (imm : BitVec 12) (s : State),
    (∃ t v, exec (.xori rd rs1 imm) s = .next t ∧ ComputesInto rd v s t ∧
      ∀ k, k < 64 → v.getLsbD k = ((s.x rs1).getLsbD k != imm.getLsbD (min k 11))) ∧
    (∃ t v, exec (.ori rd rs1 imm) s = .next t ∧ ComputesInto rd v s t ∧
      ∀ k, k < 64 → v.getLsbD k = ((s.x rs1).getLsbD k || imm.getLsbD (min k 11))) ∧
    (∃ t v, exec (.andi rd rs1 imm) s = .next t ∧ ComputesInto rd v s t ∧
      ∀ k, k < 64 → v.getLsbD k = ((s.x rs1).getLsbD k && imm.getLsbD (min k 11)))

/-! ### Loads and stores (42_loads.md, 43_stores.md) -/

/-- R141 to R145: the loads. The address is the old `x[rs1]` plus the signed immediate, modulo 2^64, at any alignment. -/
def Obligations.Loads : Prop :=
  SelectsI 0b0000011 0b000 .lb ∧ SelectsI 0b0000011 0b001 .lh ∧ SelectsI 0b0000011 0b010 .lw ∧
  SelectsI 0b0000011 0b100 .lbu ∧ SelectsI 0b0000011 0b101 .lhu ∧
  ∀ (rd rs1 : Reg) (imm : BitVec 12) (s : State) (b : Nat → Nat),
    (∀ k, b k = (s.byte (addOffset (s.x rs1) imm.toInt + BitVec.ofNat 64 k)).toNat) →
    (∃ t, exec (.lb rd rs1 imm) s = .next t ∧ ComputesInto rd (BitVec.ofInt 64 (signedOf 8 (b 0))) s t) ∧
    (∃ t, exec (.lh rd rs1 imm) s = .next t ∧
      ComputesInto rd (BitVec.ofInt 64 (signedOf 16 (b 0 + b 1 * 2 ^ 8))) s t) ∧
    (∃ t, exec (.lw rd rs1 imm) s = .next t ∧
      ComputesInto rd (BitVec.ofInt 64 (signedOf 32 (b 0 + b 1 * 2 ^ 8 + b 2 * 2 ^ 16 + b 3 * 2 ^ 24))) s t) ∧
    (∃ t, exec (.lbu rd rs1 imm) s = .next t ∧ ComputesInto rd (BitVec.ofNat 64 (b 0)) s t) ∧
    (∃ t, exec (.lhu rd rs1 imm) s = .next t ∧ ComputesInto rd (BitVec.ofNat 64 (b 0 + b 1 * 2 ^ 8)) s t)

/-- R151, R152, R153: the stores. Byte `i` of `x[rs2]` goes to the store address plus `i`, every other byte, every
register and the run status stay. -/
def Obligations.Stores : Prop :=
  SelectsS 0b000 .sb ∧ SelectsS 0b001 .sh ∧ SelectsS 0b010 .sw ∧
  ∀ (rs2 rs1 : Reg) (imm : BitVec 12) (s : State),
    s.storeAddress rs1 imm = addOffset (s.x rs1) imm.toInt ∧
    (∃ t, exec (.sb rs2 rs1 imm) s = .next t ∧ StoresInto 1 (s.storeAddress rs1 imm) (s.x rs2) s t) ∧
    (∃ t, exec (.sh rs2 rs1 imm) s = .next t ∧ StoresInto 2 (s.storeAddress rs1 imm) (s.x rs2) s t) ∧
    (∃ t, exec (.sw rs2 rs1 imm) s = .next t ∧ StoresInto 4 (s.storeAddress rs1 imm) (s.x rs2) s t)

/-! ### Branches, jumps, upper immediates (44_branches.md, 45_jumps.md, 46_upper_immediate.md) -/

/-- R161, R162: BEQ and BNE. -/
def Obligations.EqualityBranches : Prop :=
  SelectsB 0b000 .beq ∧ SelectsB 0b001 .bne ∧
  ∀ (rs1 rs2 : Reg) (off : BitVec 13) (s : State),
    (∃ t, exec (.beq rs1 rs2 off) s = .next t ∧
      BranchesTo (s.x rs1 = s.x rs2) (addOffset s.pc off.toInt) s t) ∧
    (∃ t, exec (.bne rs1 rs2 off) s = .next t ∧
      BranchesTo (s.x rs1 ≠ s.x rs2) (addOffset s.pc off.toInt) s t)

/-- R163, R164: BLT and BGE compare as signed. -/
def Obligations.SignedBranches : Prop :=
  SelectsB 0b100 .blt ∧ SelectsB 0b101 .bge ∧
  ∀ (rs1 rs2 : Reg) (off : BitVec 13) (s : State),
    (∃ t, exec (.blt rs1 rs2 off) s = .next t ∧
      BranchesTo ((s.x rs1).toInt < (s.x rs2).toInt) (addOffset s.pc off.toInt) s t) ∧
    (∃ t, exec (.bge rs1 rs2 off) s = .next t ∧
      BranchesTo ((s.x rs1).toInt ≥ (s.x rs2).toInt) (addOffset s.pc off.toInt) s t)

/-- R165, R166: BLTU and BGEU compare as unsigned. -/
def Obligations.UnsignedBranches : Prop :=
  SelectsB 0b110 .bltu ∧ SelectsB 0b111 .bgeu ∧
  ∀ (rs1 rs2 : Reg) (off : BitVec 13) (s : State),
    (∃ t, exec (.bltu rs1 rs2 off) s = .next t ∧
      BranchesTo ((s.x rs1).toNat < (s.x rs2).toNat) (addOffset s.pc off.toInt) s t) ∧
    (∃ t, exec (.bgeu rs1 rs2 off) s = .next t ∧
      BranchesTo ((s.x rs1).toNat ≥ (s.x rs2).toNat) (addOffset s.pc off.toInt) s t)

/-- R171: JAL links and jumps from its own address; the offset is signed under `P_JAL_SEXT` only. -/
def Obligations.JumpAndLink : Prop :=
  SelectsJ .jal ∧
  ∀ (rd : Reg) (off : BitVec 21) (s : State),
    ∃ t, exec (.jal rd off) s = .next t ∧
      WritesRegister rd (BitVec.ofNat 64 (s.pc.toNat + 4)) s t ∧
      LandsOn (addOffset s.pc (if s.cfg.jalSext = true then off.toInt else (off.toNat : Int))) s t ∧
      KeepsMemory s t ∧ KeepsRun s t

/-- R172: JALR links and jumps to `x[rs1]` plus the immediate with bit 0 cleared. Under `P_JALR_LINK_FIRST`, `rd = rs1`
that is not `x0` gives the link value as the base. -/
def Obligations.JumpAndLinkRegister : Prop :=
  SelectsI 0b1100111 0b000 .jalr ∧
  ∀ (rd rs1 : Reg) (imm : BitVec 12) (s : State) (base : RegVal),
    base = (if s.cfg.jalrLinkFirst = true ∧ rd = rs1 ∧ rd ≠ 0 then BitVec.ofNat 64 (s.pc.toNat + 4) else s.x rs1) →
    ∃ t, exec (.jalr rd rs1 imm) s = .next t ∧
      WritesRegister rd (BitVec.ofNat 64 (s.pc.toNat + 4)) s t ∧
      LandsOn (BitVec.ofNat 64 ((addOffset base imm.toInt).toNat / 2 * 2)) s t ∧
      KeepsMemory s t ∧ KeepsRun s t

/-- R181, R182: LUI and AUIPC. The 20-bit immediate counts 4096s and is signed at 64 bits. -/
def Obligations.UpperImmediates : Prop :=
  SelectsU 0b0110111 .lui ∧ SelectsU 0b0010111 .auipc ∧
  ∀ (rd : Reg) (imm20 : BitVec 20) (s : State),
    (∃ t, exec (.lui rd imm20) s = .next t ∧ ComputesInto rd (BitVec.ofInt 64 (imm20.toInt * 4096)) s t) ∧
    (∃ t, exec (.auipc rd imm20) s = .next t ∧ ComputesInto rd (addOffset s.pc (imm20.toInt * 4096)) s t)

/-- R172's corner: the two settings of `P_JALR_LINK_FIRST` write the same registers, and lead to different addresses
only where `rd = rs1` and it is not `x0`. -/
def Obligations.LinkOrderMattersOnlyForOneRegister : Prop :=
  ∀ (rd rs1 : Reg) (imm : BitVec 12) (s : State),
    ∃ t f, exec (.jalr rd rs1 imm) { s with cfg := { s.cfg with jalrLinkFirst := true } } = .next t ∧
      exec (.jalr rd rs1 imm) { s with cfg := { s.cfg with jalrLinkFirst := false } } = .next f ∧
      (∀ r, t.x r = f.x r) ∧ (t.pc ≠ f.pc → rd = rs1 ∧ rd ≠ 0)

/-! ### The step (30_encoding.md R78, 47_unrecognized.md, 60_exceptions.md) -/

/-- R78: a running core whose fetched word decodes to an instruction steps as that instruction does. `exec` leaves
`pc` at the next instruction itself, so `step` adds nothing around it. -/
def Obligations.StepRunsTheDecodedInstruction : Prop :=
  ∀ (s : State) (i : Instr), s.status = .running → variantOf s.fetch = .instr i → step s = exec i s

/-- R190: an unrecognized word in each of the two modes. -/
def Obligations.UnrecognizedWordStopsOrPasses : Prop :=
  ∀ s : State, s.status = .running → variantOf s.fetch = .unrecognized →
    (s.cfg.strict = true → ∃ t, step s = .next t ∧ t.status = .illegal s.pc s.fetch ∧ t.pc = s.pc ∧
      KeepsRegisters s t ∧ KeepsMemory s t ∧ t.cfg = s.cfg) ∧
    (s.cfg.strict = false → ∃ t, step s = .next t ∧ FallsThrough s t ∧
      KeepsRegisters s t ∧ KeepsMemory s t ∧ KeepsRun s t)

/-- R200: no instruction raises an event, every step answers a next state, and the run status changes only at an
unrecognized word in strict mode, to the record of that word. That a step of a stopped core answers a next state is
DEDUCED: notes/assumptions/2.md. -/
def Obligations.OnlyUnrecognizedWordsStop : Prop :=
  (∀ (i : Instr) (s : State), ∃ t, exec i s = .next t ∧ t.status = s.status) ∧
  ∀ s : State, ∃ t, step s = .next t ∧
    (t.status ≠ s.status →
      s.status = .running ∧ s.cfg.strict = true ∧ variantOf s.fetch = .unrecognized ∧
      t.status = .illegal s.pc s.fetch)

/-- R31, R201 (c), R212: a stopped core stays as it is, however often the host steps or runs it. That its step answers
the same state is DEDUCED: notes/assumptions/2.md. -/
def Obligations.StoppedCoreStaysStopped : Prop :=
  ∀ (h : Session) (pc : Addr) (word : Word), h.core.status = .illegal pc word →
    h.step = .next h ∧ (∀ n c, h.run n c = { session := h, completed := 0 }) ∧
    ∀ k, Host.Core.run Sys2Proof.core k h.core = .next h.core

/-- R27: a word that is no branch and no jump leaves `pc` at the next word, or where it was if the step stopped the
core. -/
def Obligations.PcMovesToTheNextWordOtherwise : Prop :=
  ∀ s t : State, s.status = .running → step s = .next t →
    opcode s.fetch ≠ 0b1100011#7 → opcode s.fetch ≠ 0b1101111#7 → opcode s.fetch ≠ 0b1100111#7 →
    (t.status = .running → FallsThrough s t) ∧ (t.status ≠ .running → t.pc = s.pc)

/-- Only a store changes memory: whole-machine rule from R35, R50 and the family rules. -/
def Obligations.OnlyStoresChangeMemory : Prop :=
  ∀ (s t : State) (a : Addr), step s = .next t → t.byte a ≠ s.byte a →
    s.status = .running ∧ opcode s.fetch = 0b0100011#7 ∧ (funct3 s.fetch).toNat < 3

/-- Only the register an instruction names as `rd` changes, never `x0`, and no store, branch or unrecognized word
changes a register (R22, R23, R150, R160, R190). -/
def Obligations.OnlyTheDestinationRegisterChanges : Prop :=
  ∀ (s t : State) (r : Reg), step s = .next t → t.x r ≠ s.x r →
    s.status = .running ∧ r = rdField s.fetch ∧ r ≠ 0 ∧ opcode s.fetch ≠ 0b0100011#7 ∧
    opcode s.fetch ≠ 0b1100011#7 ∧ variantOf s.fetch ≠ .unrecognized

/-- R49: code at an even address only reaches even addresses. -/
def Obligations.EvenPcStaysEven : Prop :=
  ∀ s t : State, s.pc.toNat % 2 = 0 → step s = .next t → t.pc.toNat % 2 = 0

/-- R167, R235: `beq x0, x0, 0` repeats for ever under `P_SELF_TARGET_ADVANCES = false` and falls through under
`true`. -/
def Obligations.SelfBranchLoopsForever : Prop :=
  ∀ s : State, s.status = .running → s.fetch = 0x00000063#32 →
    (s.cfg.selfTargetAdvances = false → ∀ k, Host.Core.run Sys2Proof.core k s = .next s) ∧
    (s.cfg.selfTargetAdvances = true → ∃ t, step s = .next t ∧ FallsThrough s t ∧
      KeepsRegisters s t ∧ KeepsMemory s t ∧ KeepsRun s t)

/-! ### Invariants -/

/-- The canonical memory and the empty slot behind `x0` are kept by every step. Both forms are the model's choice:
notes/assumptions/3.md and 4.md. -/
def Obligations.StepKeepsTheInvariant : Prop :=
  ∀ s t : State, s.Inv → step s = .next t → t.Inv

/-- Both invariants hold after reset, at every entry point, under every configuration. That the memory list is canonical
and the slot behind `x0` holds 0 are the model's choice: notes/assumptions/3.md and 4.md. -/
def Obligations.ResetMeetsTheInvariants : Prop :=
  (∀ (cfg : Config) (entry : Addr), (State.resetAt cfg entry).Inv ∧ (State.resetAt cfg entry).StopRecord) ∧
  State.reset.Inv ∧ State.reset.StopRecord

/-- R201, R234: what a stopped core records stays true of it: `pc` is the offending address, and the word there is the
recorded word, unrecognized, in strict mode. -/
def Obligations.StepKeepsTheStopRecord : Prop :=
  ∀ s t : State, s.StopRecord → step s = .next t → t.StopRecord

/-- Every operation of the host keeps the invariants of a session (R212). The session, the
canonical memory list and the slot behind `x0` are the model's form: notes/assumptions/7.md, 3.md and 4.md. -/
def Obligations.HostOperationsKeepTheInvariants : Prop :=
  ∀ (h h' : Session) (op : HostOp), h.Inv → h.perform op = .next h' → h'.Inv

/-- States the host cannot tell apart step to states the host cannot tell apart: what lies behind `x0`, and how the
memory is listed, is never seen (R22, R33; notes/assumptions/3.md and 4.md). That a step of a stopped core answers a
next state is DEDUCED: notes/assumptions/2.md. -/
def Obligations.StepCannotTellEqualViewsApart : Prop :=
  ∀ s s' : State, SameView s s' → ∃ t t', step s = .next t ∧ step s' = .next t' ∧ SameView t t'

/-! ### Reset, boot and the host interface (60_exceptions.md, 70_reset_and_hazards.md) -/

/-- R230: what reset leaves, whatever the session did before. -/
def Obligations.ResetValues : Prop :=
  (∀ (h : Session) (entry : Addr),
    h.reset entry = Session.construct h.core.cfg entry ∧
    (∀ r, (h.reset entry).core.x r = 0) ∧ (h.reset entry).core.pc = entry ∧
    (∀ a, (h.reset entry).core.byte a = 0) ∧ (h.reset entry).core.status = .running ∧
    (h.reset entry).core.cfg = h.core.cfg) ∧
  (∀ r, State.reset.x r = 0) ∧ State.reset.pc = 0 ∧ (∀ a, State.reset.byte a = 0) ∧
  State.reset.status = .running

/-- R29, R230: no operation of the host and no instruction changes the configuration. -/
def Obligations.ConfigurationIsFixed : Prop :=
  (∀ (i : Instr) (s t : State), exec i s = .next t → t.cfg = s.cfg) ∧
  ∀ (h h' : Session) (op : HostOp), h.perform op = .next h' → h'.core.cfg = h.core.cfg

/-- R212, R233: `load` writes byte `i` of the buffer at `(base + i) mod 2^64` and nothing else before the first step,
and is refused after it. The session is the model's form: notes/assumptions/7.md. -/
def Obligations.LoadOnlyBeforeTheFirstStep : Prop :=
  (∀ (h : Session) (base : Addr) (bytes : List Byte), h.stepped = false → bytes.length ≤ 2 ^ 64 →
    ∃ h', h.load base bytes = .next h' ∧ h'.stepped = false ∧
      (∀ i (hi : i < bytes.length), h'.core.byte (BitVec.ofNat 64 ((base.toNat + i) % 2 ^ 64)) = bytes[i]) ∧
      (∀ a, (∀ i, i < bytes.length → a ≠ BitVec.ofNat 64 ((base.toNat + i) % 2 ^ 64)) →
        h'.core.byte a = h.core.byte a) ∧
      KeepsRegisters h.core h'.core ∧ h'.core.pc = h.core.pc ∧ KeepsRun h.core h'.core) ∧
  ∀ (h h' : Session) (base : Addr) (bytes : List Byte), h.core.status = .running → h.step = .next h' →
    h'.load base bytes = .refused .loadAfterFirstStep

/-- R233: after boot with an image at the entry point, the core fetches the image's first word, with every register 0.
How a program comes to run: notes/assumptions/6.md. -/
def Obligations.BootedImageIsFetched : Prop :=
  ∀ (cfg : Config) (entry : Addr) (w : Word) (rest : List Byte), rest.length + 4 ≤ 2 ^ 64 →
    ∃ h, Session.boot cfg entry { base := entry, bytes := layOutWord w ++ rest } = .next h ∧
      h.core.fetch = w ∧ h.core.pc = entry ∧ h.core.status = .running ∧ h.core.cfg = cfg ∧
      h.stepped = false ∧ ∀ r, h.core.x r = 0

/-- R212: `run(n)` is `n` steps of the core, stopped ones doing nothing; it completes at most `n` instructions, and
fewer only if the core stopped. That a stopped core's step answers the same state, and that a compatibility-mode no-op
counts, are DEDUCED: notes/assumptions/2.md and 7.md. -/
def Obligations.RunIsRepeatedStep : Prop :=
  ∀ (h : Session) (n : Nat),
    Host.Core.run Sys2Proof.core n h.core = .next (h.run n none).session.core ∧
    (h.run n none).completed ≤ n ∧
    ((h.run n none).completed < n → ∃ pc word, (h.run n none).session.core.status = .illegal pc word)

/-- R213: a run stopped by its budget goes on from there: two runs are one (notes/assumptions/7.md). -/
def Obligations.RunsCompose : Prop :=
  ∀ (h : Session) (n m : Nat), (h.run n none).session.core.status = .running →
    (h.run (n + m) none).session = ((h.run n none).session.run m none).session ∧
    (h.run (n + m) none).completed = n + ((h.run n none).session.run m none).completed

/-- R204, R213: a cancellation after `k` instructions leaves what a budget of `k` would have left. A
cancellation as an input of `run` is the model's form: notes/assumptions/7.md. -/
def Obligations.CancellationActsAsABudget : Prop :=
  ∀ (h : Session) (n k : Nat), h.run n (some k) = h.run (min n k) none

/-- R232: the loader's copy contract (notes/assumptions/11.md). -/
def Obligations.LoaderCopiesWholeSectors : Prop :=
  ∀ (disk : List Byte) (capacity : Nat),
    loaderCopy disk capacity none = .error .notFound ∧
    ∀ r : BootRecord,
      (capacity < r.sectors * 2048 ∨ disk.length < r.startBlock * 2048 + r.sectors * 2048 →
        loaderCopy disk capacity (some r) = .error .invalidInput) ∧
      (r.sectors * 2048 ≤ capacity → r.startBlock * 2048 + r.sectors * 2048 ≤ disk.length →
        ∃ out, loaderCopy disk capacity (some r) = .ok out ∧ out.length = r.sectors * 2048 ∧
          ∀ i, i < r.sectors * 2048 → out[i]? = disk[r.startBlock * 2048 + i]?)

/-- R81: `li rd, v` loads `v` wherever R81 gives it an expansion: -2048 .. 2047, or `v - lo` in -2^31 .. 2^31 - 4096. -/
def Obligations.LoadImmediateExpansion : Prop :=
  ∀ (rd : Reg) (v : RegVal), fitsImm12 v = true ∨ hiLoFits v = true →
    ∃ is, Pseudo.expand (.li rd v) = some is ∧
      ∀ s : State, ∃ t, execAll is s = .next t ∧ WritesRegister rd v s t ∧
        t.pc = s.pc + BitVec.ofNat 64 (4 * is.length) ∧ KeepsMemory s t ∧ KeepsRun s t
end

