-- ==== Sys2Proof/Laws/Decode.lean ====
section
/-! SUPPORT. The fields of an encoded word (30_encoding.md R61, R62): what each field function reads from each format,
and the word as its fields put together again. Read bit by bit, since no width of a field divides another's. -/

namespace Sys2Proof

@[simp] theorem regBits_toFin (f : BitVec 5) : regBits f.toFin = f := rfl
@[simp] theorem toFin_regBits (r : Reg) : (regBits r).toFin = r := rfl

/-! ### R format (register-register and shift-immediate) -/

section
variable (f7 : BitVec 7) (rs2 : BitVec 5) (rs1 : Reg) (f3 : BitVec 3) (rd : Reg) (opc : BitVec 7)

@[simp] theorem opcode_packR : opcode (packR f7 rs2 rs1 f3 rd opc) = opc := by
  apply BitVec.eq_of_getLsbD_eq
  intro i hi
  simp only [opcode, packR, BitVec.getLsbD_extractLsb', BitVec.getLsbD_cast, BitVec.getLsbD_append]
  interval_cases i <;> simp

@[simp] theorem funct3_packR : funct3 (packR f7 rs2 rs1 f3 rd opc) = f3 := by
  apply BitVec.eq_of_getLsbD_eq
  intro i hi
  simp only [funct3, packR, BitVec.getLsbD_extractLsb', BitVec.getLsbD_cast, BitVec.getLsbD_append]
  interval_cases i <;> simp

@[simp] theorem funct7_packR : funct7 (packR f7 rs2 rs1 f3 rd opc) = f7 := by
  apply BitVec.eq_of_getLsbD_eq
  intro i hi
  simp only [funct7, packR, BitVec.getLsbD_extractLsb', BitVec.getLsbD_cast, BitVec.getLsbD_append]
  interval_cases i <;> simp

@[simp] theorem shamtField_packR : shamtField (packR f7 rs2 rs1 f3 rd opc) = rs2 := by
  apply BitVec.eq_of_getLsbD_eq
  intro i hi
  simp only [shamtField, packR, BitVec.getLsbD_extractLsb', BitVec.getLsbD_cast, BitVec.getLsbD_append]
  interval_cases i <;> simp

@[simp] theorem rdField_packR : rdField (packR f7 rs2 rs1 f3 rd opc) = rd := by
  refine congrArg BitVec.toFin (?_ : _ = regBits rd)
  apply BitVec.eq_of_getLsbD_eq
  intro i hi
  simp only [packR, BitVec.getLsbD_extractLsb', BitVec.getLsbD_cast, BitVec.getLsbD_append]
  interval_cases i <;> simp

@[simp] theorem rs1Field_packR : rs1Field (packR f7 rs2 rs1 f3 rd opc) = rs1 := by
  refine congrArg BitVec.toFin (?_ : _ = regBits rs1)
  apply BitVec.eq_of_getLsbD_eq
  intro i hi
  simp only [packR, BitVec.getLsbD_extractLsb', BitVec.getLsbD_cast, BitVec.getLsbD_append]
  interval_cases i <;> simp

@[simp] theorem rs2Field_packR (r : Reg) : rs2Field (packR f7 (regBits r) rs1 f3 rd opc) = r :=
  congrArg BitVec.toFin (shamtField_packR f7 (regBits r) rs1 f3 rd opc)

end

/-! ### I format (register-immediate) -/

section
variable (imm : BitVec 12) (rs1 : Reg) (f3 : BitVec 3) (rd : Reg) (opc : BitVec 7)

@[simp] theorem opcode_packI : opcode (packI imm rs1 f3 rd opc) = opc := by
  apply BitVec.eq_of_getLsbD_eq
  intro i hi
  simp only [opcode, packI, BitVec.getLsbD_extractLsb', BitVec.getLsbD_cast, BitVec.getLsbD_append]
  interval_cases i <;> simp

@[simp] theorem funct3_packI : funct3 (packI imm rs1 f3 rd opc) = f3 := by
  apply BitVec.eq_of_getLsbD_eq
  intro i hi
  simp only [funct3, packI, BitVec.getLsbD_extractLsb', BitVec.getLsbD_cast, BitVec.getLsbD_append]
  interval_cases i <;> simp

@[simp] theorem iField_packI : iField (packI imm rs1 f3 rd opc) = imm := by
  apply BitVec.eq_of_getLsbD_eq
  intro i hi
  simp only [iField, packI, BitVec.getLsbD_extractLsb', BitVec.getLsbD_cast, BitVec.getLsbD_append]
  interval_cases i <;> simp

@[simp] theorem rdField_packI : rdField (packI imm rs1 f3 rd opc) = rd := by
  refine congrArg BitVec.toFin (?_ : _ = regBits rd)
  apply BitVec.eq_of_getLsbD_eq
  intro i hi
  simp only [packI, BitVec.getLsbD_extractLsb', BitVec.getLsbD_cast, BitVec.getLsbD_append]
  interval_cases i <;> simp

@[simp] theorem rs1Field_packI : rs1Field (packI imm rs1 f3 rd opc) = rs1 := by
  refine congrArg BitVec.toFin (?_ : _ = regBits rs1)
  apply BitVec.eq_of_getLsbD_eq
  intro i hi
  simp only [packI, BitVec.getLsbD_extractLsb', BitVec.getLsbD_cast, BitVec.getLsbD_append]
  interval_cases i <;> simp

end

/-! ### S format (store) -/

section
variable (imm : BitVec 12) (rs2 rs1 : Reg) (f3 : BitVec 3) (opc : BitVec 7)

@[simp] theorem opcode_packS : opcode (packS imm rs2 rs1 f3 opc) = opc := by
  apply BitVec.eq_of_getLsbD_eq
  intro i hi
  simp only [opcode, packS, BitVec.getLsbD_extractLsb', BitVec.getLsbD_cast, BitVec.getLsbD_append]
  interval_cases i <;> simp

@[simp] theorem funct3_packS : funct3 (packS imm rs2 rs1 f3 opc) = f3 := by
  apply BitVec.eq_of_getLsbD_eq
  intro i hi
  simp only [funct3, packS, BitVec.getLsbD_extractLsb', BitVec.getLsbD_cast, BitVec.getLsbD_append]
  interval_cases i <;> simp

@[simp] theorem sField_packS : sField (packS imm rs2 rs1 f3 opc) = imm := by
  apply BitVec.eq_of_getLsbD_eq
  intro i hi
  simp only [sField, packS, BitVec.getLsbD_extractLsb', BitVec.getLsbD_cast, BitVec.getLsbD_append]
  interval_cases i <;> simp

@[simp] theorem rs2Field_packS : rs2Field (packS imm rs2 rs1 f3 opc) = rs2 := by
  refine congrArg BitVec.toFin (?_ : _ = regBits rs2)
  apply BitVec.eq_of_getLsbD_eq
  intro i hi
  simp only [packS, BitVec.getLsbD_extractLsb', BitVec.getLsbD_cast, BitVec.getLsbD_append]
  interval_cases i <;> simp

@[simp] theorem rs1Field_packS : rs1Field (packS imm rs2 rs1 f3 opc) = rs1 := by
  refine congrArg BitVec.toFin (?_ : _ = regBits rs1)
  apply BitVec.eq_of_getLsbD_eq
  intro i hi
  simp only [packS, BitVec.getLsbD_extractLsb', BitVec.getLsbD_cast, BitVec.getLsbD_append]
  interval_cases i <;> simp

end

/-! ### B format (branch) -/

section
variable (off : BitVec 13) (rs2 rs1 : Reg) (f3 : BitVec 3) (opc : BitVec 7)

@[simp] theorem opcode_packB : opcode (packB off rs2 rs1 f3 opc) = opc := by
  apply BitVec.eq_of_getLsbD_eq
  intro i hi
  simp only [opcode, packB, BitVec.getLsbD_extractLsb', BitVec.getLsbD_cast, BitVec.getLsbD_append]
  interval_cases i <;> simp

@[simp] theorem funct3_packB : funct3 (packB off rs2 rs1 f3 opc) = f3 := by
  apply BitVec.eq_of_getLsbD_eq
  intro i hi
  simp only [funct3, packB, BitVec.getLsbD_extractLsb', BitVec.getLsbD_cast, BitVec.getLsbD_append]
  interval_cases i <;> simp

theorem bField_packB (h : off.getLsbD 0 = false) : bField (packB off rs2 rs1 f3 opc) = off := by
  apply BitVec.eq_of_getLsbD_eq
  intro i hi
  simp only [bField, packB, BitVec.getLsbD_extractLsb', BitVec.getLsbD_cast, BitVec.getLsbD_append]
  interval_cases i <;> simp
  simpa using h

@[simp] theorem rs2Field_packB : rs2Field (packB off rs2 rs1 f3 opc) = rs2 := by
  refine congrArg BitVec.toFin (?_ : _ = regBits rs2)
  apply BitVec.eq_of_getLsbD_eq
  intro i hi
  simp only [packB, BitVec.getLsbD_extractLsb', BitVec.getLsbD_cast, BitVec.getLsbD_append]
  interval_cases i <;> simp

@[simp] theorem rs1Field_packB : rs1Field (packB off rs2 rs1 f3 opc) = rs1 := by
  refine congrArg BitVec.toFin (?_ : _ = regBits rs1)
  apply BitVec.eq_of_getLsbD_eq
  intro i hi
  simp only [packB, BitVec.getLsbD_extractLsb', BitVec.getLsbD_cast, BitVec.getLsbD_append]
  interval_cases i <;> simp

end

/-! ### U format (upper-immediate) -/

section
variable (imm20 : BitVec 20) (rd : Reg) (opc : BitVec 7)

@[simp] theorem opcode_packU : opcode (packU imm20 rd opc) = opc := by
  apply BitVec.eq_of_getLsbD_eq
  intro i hi
  simp only [opcode, packU, BitVec.getLsbD_extractLsb', BitVec.getLsbD_cast, BitVec.getLsbD_append]
  interval_cases i <;> simp

@[simp] theorem uField_packU : uField (packU imm20 rd opc) = imm20 := by
  apply BitVec.eq_of_getLsbD_eq
  intro i hi
  simp only [uField, packU, BitVec.getLsbD_extractLsb', BitVec.getLsbD_cast, BitVec.getLsbD_append]
  interval_cases i <;> simp

@[simp] theorem rdField_packU : rdField (packU imm20 rd opc) = rd := by
  refine congrArg BitVec.toFin (?_ : _ = regBits rd)
  apply BitVec.eq_of_getLsbD_eq
  intro i hi
  simp only [packU, BitVec.getLsbD_extractLsb', BitVec.getLsbD_cast, BitVec.getLsbD_append]
  interval_cases i <;> simp

end

/-! ### J format (jump) -/

section
variable (off : BitVec 21) (rd : Reg) (opc : BitVec 7)

@[simp] theorem opcode_packJ : opcode (packJ off rd opc) = opc := by
  apply BitVec.eq_of_getLsbD_eq
  intro i hi
  simp only [opcode, packJ, BitVec.getLsbD_extractLsb', BitVec.getLsbD_cast, BitVec.getLsbD_append]
  interval_cases i <;> simp

theorem jField_packJ (h : off.getLsbD 0 = false) : jField (packJ off rd opc) = off := by
  apply BitVec.eq_of_getLsbD_eq
  intro i hi
  simp only [jField, packJ, BitVec.getLsbD_extractLsb', BitVec.getLsbD_cast, BitVec.getLsbD_append]
  interval_cases i <;> simp
  simpa using h

@[simp] theorem rdField_packJ : rdField (packJ off rd opc) = rd := by
  refine congrArg BitVec.toFin (?_ : _ = regBits rd)
  apply BitVec.eq_of_getLsbD_eq
  intro i hi
  simp only [packJ, BitVec.getLsbD_extractLsb', BitVec.getLsbD_cast, BitVec.getLsbD_append]
  interval_cases i <;> simp

end

/-! ### A word is its fields, in each format -/

section
variable (w : Word)

@[simp] theorem regBits_rs2Field : regBits (rs2Field w) = shamtField w := rfl

theorem packR_fields : packR (funct7 w) (shamtField w) (rs1Field w) (funct3 w) (rdField w) (opcode w) = w := by
  apply BitVec.eq_of_getLsbD_eq
  intro i hi
  simp only [packR, funct7, shamtField, rs1Field, funct3, rdField, opcode, regBits_toFin, BitVec.getLsbD_extractLsb', BitVec.getLsbD_cast, BitVec.getLsbD_append]
  interval_cases i <;> simp

theorem packI_fields : packI (iField w) (rs1Field w) (funct3 w) (rdField w) (opcode w) = w := by
  apply BitVec.eq_of_getLsbD_eq
  intro i hi
  simp only [packI, iField, rs1Field, funct3, rdField, opcode, regBits_toFin, BitVec.getLsbD_extractLsb', BitVec.getLsbD_cast, BitVec.getLsbD_append]
  interval_cases i <;> simp

theorem packS_fields : packS (sField w) (rs2Field w) (rs1Field w) (funct3 w) (opcode w) = w := by
  apply BitVec.eq_of_getLsbD_eq
  intro i hi
  simp only [packS, sField, rs2Field, rs1Field, funct3, opcode, regBits_toFin, BitVec.getLsbD_extractLsb', BitVec.getLsbD_cast, BitVec.getLsbD_append]
  interval_cases i <;> simp

theorem packB_fields : packB (bField w) (rs2Field w) (rs1Field w) (funct3 w) (opcode w) = w := by
  apply BitVec.eq_of_getLsbD_eq
  intro i hi
  simp only [packB, bField, rs2Field, rs1Field, funct3, opcode, regBits_toFin, BitVec.getLsbD_extractLsb', BitVec.getLsbD_cast, BitVec.getLsbD_append]
  interval_cases i <;> simp

theorem packU_fields : packU (uField w) (rdField w) (opcode w) = w := by
  apply BitVec.eq_of_getLsbD_eq
  intro i hi
  simp only [packU, uField, rdField, opcode, regBits_toFin, BitVec.getLsbD_extractLsb', BitVec.getLsbD_cast, BitVec.getLsbD_append]
  interval_cases i <;> simp

theorem packJ_fields : packJ (jField w) (rdField w) (opcode w) = w := by
  apply BitVec.eq_of_getLsbD_eq
  intro i hi
  simp only [packJ, jField, rdField, opcode, regBits_toFin, BitVec.getLsbD_extractLsb', BitVec.getLsbD_cast, BitVec.getLsbD_append]
  interval_cases i <;> simp

/-- R65: the low bit of every decoded branch offset is 0. -/
theorem bField_even : (bField w).getLsbD 0 = false := by
  simp only [bField, BitVec.getLsbD_cast, BitVec.getLsbD_append]
  simp

/-- R67: the low bit of every decoded jump offset is 0. -/
theorem jField_even : (jField w).getLsbD 0 = false := by
  simp only [jField, BitVec.getLsbD_cast, BitVec.getLsbD_append]
  simp

/-! ### The dispatch by major opcode (R72, R73) -/

theorem variantOf_op (h : opcode w = 0b0110011#7) : variantOf w = decodeOp w := by simp [variantOf, h]
theorem variantOf_opImm (h : opcode w = 0b0010011#7) : variantOf w = decodeOpImm w := by simp [variantOf, h]
theorem variantOf_load (h : opcode w = 0b0000011#7) : variantOf w = decodeLoad w := by simp [variantOf, h]
theorem variantOf_store (h : opcode w = 0b0100011#7) : variantOf w = decodeStore w := by simp [variantOf, h]
theorem variantOf_branch (h : opcode w = 0b1100011#7) : variantOf w = decodeBranch w := by simp [variantOf, h]
theorem variantOf_jalr (h : opcode w = 0b1100111#7) : variantOf w = decodeJalr w := by simp [variantOf, h]
theorem variantOf_jal (h : opcode w = 0b1101111#7) : variantOf w = .instr (.jal (rdField w) (jField w)) := by
  simp [variantOf, h]
theorem variantOf_lui (h : opcode w = 0b0110111#7) : variantOf w = .instr (.lui (rdField w) (uField w)) := by
  simp [variantOf, h]
theorem variantOf_auipc (h : opcode w = 0b0010111#7) : variantOf w = .instr (.auipc (rdField w) (uField w)) := by
  simp [variantOf, h]

/-- R73: the nine opcodes under which a word can be an instruction, and what decides there. -/
theorem variantOf_instr_cases {i : Instr} (h : variantOf w = .instr i) :
    (opcode w = 0b0110011#7 ∧ decodeOp w = .instr i) ∨ (opcode w = 0b0010011#7 ∧ decodeOpImm w = .instr i) ∨
    (opcode w = 0b0000011#7 ∧ decodeLoad w = .instr i) ∨ (opcode w = 0b0100011#7 ∧ decodeStore w = .instr i) ∨
    (opcode w = 0b1100011#7 ∧ decodeBranch w = .instr i) ∨ (opcode w = 0b1100111#7 ∧ decodeJalr w = .instr i) ∨
    (opcode w = 0b1101111#7 ∧ i = .jal (rdField w) (jField w)) ∨
    (opcode w = 0b0110111#7 ∧ i = .lui (rdField w) (uField w)) ∨
    (opcode w = 0b0010111#7 ∧ i = .auipc (rdField w) (uField w)) := by
  unfold variantOf at h
  split at h
  · exact .inl ⟨‹_›, h⟩
  · exact .inr (.inl ⟨‹_›, h⟩)
  · exact .inr (.inr (.inl ⟨‹_›, h⟩))
  · exact .inr (.inr (.inr (.inl ⟨‹_›, h⟩)))
  · exact .inr (.inr (.inr (.inr (.inl ⟨‹_›, h⟩))))
  · exact .inr (.inr (.inr (.inr (.inr (.inr (.inl ⟨‹_›, by simpa using h.symm⟩))))))
  · exact .inr (.inr (.inr (.inr (.inr (.inl ⟨‹_›, h⟩)))))
  · exact .inr (.inr (.inr (.inr (.inr (.inr (.inr (.inl ⟨‹_›, by simpa using h.symm⟩)))))))
  · exact .inr (.inr (.inr (.inr (.inr (.inr (.inr (.inr ⟨‹_›, by simpa using h.symm⟩)))))))
  · cases h

/-! ### Words as bytes (R46, R60) -/

theorem assembleWord_layOut : assembleWord (wordByte w 0) (wordByte w 1) (wordByte w 2) (wordByte w 3) = w := by
  apply BitVec.eq_of_getLsbD_eq
  intro i hi
  simp only [assembleWord, wordByte, BitVec.getLsbD_extractLsb', BitVec.getLsbD_cast, BitVec.getLsbD_append]
  interval_cases i <;> simp

theorem decodeBytes_layOut (rest : List Byte) : decodeBytes (layOutWord w ++ rest) = some (variantOf w, rest) := by
  simp [layOutWord, decodeBytes, assembleWord_layOut]

end

/-! ### Masks (opcode_table.json) -/

theorem opcode_and (a b : Word) : opcode (a &&& b) = opcode a &&& opcode b := by
  apply BitVec.eq_of_getLsbD_eq
  intro i hi
  simp [opcode, hi]

theorem funct3_and (a b : Word) : funct3 (a &&& b) = funct3 a &&& funct3 b := by
  apply BitVec.eq_of_getLsbD_eq
  intro i hi
  simp [funct3, hi]

theorem funct7_and (a b : Word) : funct7 (a &&& b) = funct7 a &&& funct7 b := by
  apply BitVec.eq_of_getLsbD_eq
  intro i hi
  simp [funct7, hi]

/-- The fields a row of the table examines, of a word that matches the row. -/
theorem fields_of_row_match {w : Word} {m : Mnemonic} (h : w &&& m.rowMask = m.rowMatch) :
    opcode w = opcode m.rowMatch ∧ (funct3 m.rowMask = 7#3 → funct3 w = funct3 m.rowMatch) ∧
      (funct7 m.rowMask = 127#7 → funct7 w = funct7 m.rowMatch) := by
  refine ⟨?_, fun hm => ?_, fun hm => ?_⟩
  · have := congrArg opcode h
    have hm : opcode m.rowMask = BitVec.allOnes 7 := by cases m <;> decide
    rwa [opcode_and, hm, BitVec.and_allOnes] at this
  · have := congrArg funct3 h
    rwa [funct3_and, hm, show (7#3) = BitVec.allOnes 3 from rfl, BitVec.and_allOnes] at this
  · have := congrArg funct7 h
    rwa [funct7_and, hm, show (127#7) = BitVec.allOnes 7 from rfl, BitVec.and_allOnes] at this

end Sys2Proof
end

