-- ==== Sys2Proof/Laws/Memory.lean ====
section
/-! SUPPORT. The memory image: read after write (20_memory.md R41, R42), the canonical form and that every operation
keeps it, and multi-byte accesses byte by byte (R43 to R45). -/

namespace Sys2Proof.Machine

/-! ### `lookup`, `erase`, `place` -/

@[simp] theorem lookup_nil (k : Nat) : Memory.lookup [] k = 0 := rfl

theorem lookup_erase (m : Memory) (k j : Nat) :
    (m.erase k).lookup j = if j = k then 0 else m.lookup j := by
  induction m with
  | nil => simp [Memory.erase, Memory.lookup]
  | cons c rest ih =>
    obtain ⟨a, b⟩ := c
    simp only [Memory.erase] at ih ⊢
    by_cases hk : a = k
    · subst hk
      by_cases hj : j = a
      · subst hj; simpa using ih
      · simp [Memory.lookup, ih, hj, Ne.symm hj]
    · by_cases hj : a = j
      · subst hj; simp [Memory.lookup, hk]
      · simp [Memory.lookup, hk, hj, ih]

theorem lookup_place (m : Memory) (k j : Nat) (v : Byte) (h : ∀ c ∈ m, c.1 ≠ k) :
    (m.place k v).lookup j = if j = k then v else m.lookup j := by
  induction m with
  | nil => simp [Memory.place, Memory.lookup, eq_comm]
  | cons c rest ih =>
    obtain ⟨a, b⟩ := c
    have ha : a ≠ k := h (a, b) (by simp)
    have ih' := ih (fun c hc => h c (by simp [hc]))
    unfold Memory.place
    split
    · by_cases hj : k = j
      · simp [Memory.lookup, hj]
      · simp [Memory.lookup, hj, Ne.symm hj]
    · by_cases hj : a = j
      · subst hj; simp [Memory.lookup, ha]
      · simp [Memory.lookup, hj, ih']

theorem ne_of_mem_erase {m : Memory} {k : Nat} {c : Host.Cell} (h : c ∈ m.erase k) : c.1 ≠ k := by
  have := (List.mem_filter.1 h).2
  simpa using this

theorem mem_of_mem_erase {m : Memory} {k : Nat} {c : Host.Cell} (h : c ∈ m.erase k) : c ∈ m :=
  (List.mem_filter.1 h).1

theorem mem_place {m : Memory} {k : Nat} {v : Byte} {c : Host.Cell} :
    c ∈ m.place k v ↔ c = (k, v) ∨ c ∈ m := by
  induction m with
  | nil => simp [Memory.place]
  | cons d rest ih =>
    obtain ⟨a, b⟩ := d
    unfold Memory.place
    split
    · simp
    · simp only [List.mem_cons, ih]; tauto

/-! ### `get` and `set` (R41, R42) -/

@[simp] theorem get_nil (a : Addr) : Memory.get [] a = 0 := rfl

/-- R42: a `set` is seen at its address and nowhere else, in any list of cells. -/
theorem get_set (m : Memory) (a b : Addr) (v : Byte) :
    (m.set a v).get b = if b = a then v else m.get b := by
  unfold Memory.set Memory.get
  split
  · next hv => subst hv; simp [lookup_erase, BitVec.toNat_inj]
  · rw [lookup_place _ _ _ _ (fun c hc => ne_of_mem_erase hc), lookup_erase]
    simp only [BitVec.toNat_inj]
    by_cases h : b = a <;> simp [h]

/-! ### The canonical form -/

theorem wf_nil : Memory.wf [] := by simp [Memory.wf]

theorem wf_erase {m : Memory} (h : m.wf) (k : Nat) : (m.erase k).wf :=
  ⟨h.1.sublist List.filter_sublist, fun c hc => h.2 c (mem_of_mem_erase hc)⟩

theorem sorted_place {m : Memory} {k : Nat} {v : Byte} (h : m.Pairwise (fun c d => c.1 < d.1))
    (hk : ∀ c ∈ m, c.1 ≠ k) : (m.place k v).Pairwise (fun c d => c.1 < d.1) := by
  induction m with
  | nil => simp [Memory.place]
  | cons c rest ih =>
    obtain ⟨a, b⟩ := c
    have ha : a ≠ k := hk (a, b) (by simp)
    obtain ⟨hlt, hrest⟩ := List.pairwise_cons.1 h
    unfold Memory.place
    split
    · next hka =>
      refine List.pairwise_cons.2 ⟨fun d hd => ?_, h⟩
      rcases List.mem_cons.1 hd with rfl | hd
      · exact hka
      · exact lt_trans hka (hlt d hd)
    · refine List.pairwise_cons.2 ⟨fun d hd => ?_, ih hrest (fun c hc => hk c (by simp [hc]))⟩
      rcases mem_place.1 hd with rfl | hd
      · show a < k
        omega
      · exact hlt d hd

theorem wf_set {m : Memory} (h : m.wf) (a : Addr) (v : Byte) : (m.set a v).wf := by
  unfold Memory.set
  split
  · exact wf_erase h _
  · next hv =>
    have he := wf_erase h a.toNat
    refine ⟨sorted_place he.1 (fun c hc => ne_of_mem_erase hc), fun c hc => ?_⟩
    rcases mem_place.1 hc with rfl | hc
    · exact ⟨a.isLt, hv⟩
    · exact he.2 c hc

theorem wf_memWrite {m : Memory} (h : m.wf) (a : Addr) (v : RegVal) (n : Nat) : (memWrite m a v n).wf := by
  induction n with
  | zero => exact h
  | succ n ih => exact wf_set ih _ _

theorem wf_loadBytes {m : Memory} (h : m.wf) (a : Addr) (bs : List Byte) : (loadBytes m a bs).wf := by
  induction bs generalizing m a with
  | nil => exact h
  | cons b rest ih => exact ih (wf_set h a b) _

theorem lookup_eq_zero_of_lt {m : Memory} {k : Nat} (h : ∀ c ∈ m, k < c.1) : m.lookup k = 0 := by
  induction m with
  | nil => rfl
  | cons c rest ih =>
    obtain ⟨a, b⟩ := c
    have ha : k < a := h (a, b) (by simp)
    simp [Memory.lookup, ha.ne', ih (fun c hc => h c (by simp [hc]))]

/-- Two sorted lists without zeros that read alike at every key are the same list. -/
theorem sorted_ext {m n : Memory} (hm : m.Pairwise (fun c d => c.1 < d.1)) (hn : n.Pairwise (fun c d => c.1 < d.1))
    (zm : ∀ c ∈ m, c.2 ≠ 0) (zn : ∀ c ∈ n, c.2 ≠ 0) (h : ∀ k, m.lookup k = n.lookup k) : m = n := by
  induction m generalizing n with
  | nil =>
    cases n with
    | nil => rfl
    | cons d n =>
      obtain ⟨e, f⟩ := d
      exact absurd (by simpa [Memory.lookup] using (h e).symm) (zn (e, f) (by simp))
  | cons c m ih =>
    obtain ⟨a, b⟩ := c
    have zb := zm (a, b) (by simp)
    cases n with
    | nil => exact absurd (by simpa [Memory.lookup] using h a) zb
    | cons d n =>
      obtain ⟨e, f⟩ := d
      have zf := zn (e, f) (by simp)
      obtain ⟨hma, hm'⟩ := List.pairwise_cons.1 hm
      obtain ⟨hne, hn'⟩ := List.pairwise_cons.1 hn
      have hae : a = e := by
        rcases lt_trichotomy a e with hlt | heq | hgt
        · have h0 : Memory.lookup ((e, f) :: n) a = 0 := by
            refine lookup_eq_zero_of_lt fun c hc => ?_
            rcases List.mem_cons.1 hc with rfl | hc
            · exact hlt
            · exact lt_trans hlt (hne c hc)
          exact absurd (by rw [← h a] at h0; simpa [Memory.lookup] using h0) zb
        · exact heq
        · have h0 : Memory.lookup ((a, b) :: m) e = 0 := by
            refine lookup_eq_zero_of_lt fun c hc => ?_
            rcases List.mem_cons.1 hc with rfl | hc
            · exact hgt
            · exact lt_trans hgt (hma c hc)
          exact absurd (by rw [h e] at h0; simpa [Memory.lookup] using h0) zf
      subst hae
      have hbf : b = f := by simpa [Memory.lookup] using h a
      subst hbf
      have : m = n := by
        refine ih hm' hn' (fun c hc => zm c (by simp [hc])) (fun c hc => zn c (by simp [hc])) fun k => ?_
        by_cases hk : a = k
        · subst hk
          rw [lookup_eq_zero_of_lt hma, lookup_eq_zero_of_lt hne]
        · simpa [Memory.lookup, hk] using h k
      rw [this]

theorem lookup_eq_zero_of_absent {m : Memory} {k : Nat} (h : ∀ c ∈ m, c.1 ≠ k) : m.lookup k = 0 := by
  induction m with
  | nil => rfl
  | cons c rest ih =>
    obtain ⟨a, b⟩ := c
    have ha : a ≠ k := h (a, b) (by simp)
    simp [Memory.lookup, ha, ih (fun c hc => h c (by simp [hc]))]

/-- Canonical memories that read alike at every address are equal data (R33, D21). -/
theorem memory_ext {m n : Memory} (hm : m.wf) (hn : n.wf) (h : ∀ a, m.get a = n.get a) : m = n := by
  refine sorted_ext hm.1 hn.1 (fun c hc => (hm.2 c hc).2) (fun c hc => (hn.2 c hc).2) fun k => ?_
  by_cases hk : k < 2 ^ 64
  · have := h (BitVec.ofNat 64 k)
    simpa only [Memory.get, BitVec.toNat_ofNat, Nat.mod_eq_of_lt hk] using this
  · rw [lookup_eq_zero_of_absent fun c hc => ?_, lookup_eq_zero_of_absent fun c hc => ?_]
    · have := (hn.2 c hc).1; omega
    · have := (hm.2 c hc).1; omega

/-! ### Multi-byte accesses -/

/-- An access of at most 2^64 bytes names each address once (R45). -/
theorem offset_toNat (addr b : Addr) (i : Nat) (hi : i < 2 ^ 64) :
    b = addr + BitVec.ofNat 64 i ↔ (b - addr).toNat = i := by
  constructor
  · rintro rfl
    have ha := addr.isLt
    rw [BitVec.toNat_sub, BitVec.toNat_add, BitVec.toNat_ofNat]
    omega
  · intro h
    apply BitVec.eq_of_toNat_eq
    have hb := b.isLt
    have ha := addr.isLt
    rw [BitVec.toNat_sub] at h
    rw [BitVec.toNat_add, BitVec.toNat_ofNat]
    omega

/-- R44, R45: what every address reads after `MemWrite`: byte `i` at `addr + i`, and the old byte elsewhere. -/
theorem get_memWrite (m : Memory) (addr b : Addr) (v : RegVal) (n : Nat) (hn : n ≤ 2 ^ 64) :
    (memWrite m addr v n).get b =
      if (b - addr).toNat < n then byteOf v (b - addr).toNat else m.get b := by
  induction n with
  | zero => simp [memWrite]
  | succ n ih =>
    have hn' : n < 2 ^ 64 := by omega
    rw [memWrite, get_set, ih (by omega)]
    simp only [offset_toNat addr b n hn']
    by_cases h : (b - addr).toNat = n
    · simp [h]
    · rw [if_neg h]
      by_cases h' : (b - addr).toNat < n
      · rw [if_pos h', if_pos (by omega)]
      · rw [if_neg h', if_neg (by omega)]

/-- Bits of the gathered value: bit `8i + j` is bit `j` of byte `i` (R43). -/
theorem getLsbD_gatherBytes (m : Memory) (addr : Addr) (n k : Nat) (hn : n ≤ 8) :
    (gatherBytes m addr n).getLsbD k =
      (decide (k < 8 * n) && (m.get (addr + BitVec.ofNat 64 (k / 8))).getLsbD (k % 8)) := by
  induction n with
  | zero => simp [gatherBytes]
  | succ n ih =>
    rw [gatherBytes, BitVec.getLsbD_or, ih (by omega), BitVec.getLsbD_shiftLeft, BitVec.getLsbD_setWidth]
    by_cases h1 : k < 8 * n
    · simp [h1, show k < 8 * (n + 1) by omega]
    · by_cases h2 : k < 8 * (n + 1)
      · have hd : k / 8 = n := by omega
        have hm : k - 8 * n = k % 8 := by omega
        simp [h1, h2, hd, hm, show k < 64 by omega, show k % 8 < 64 by omega]
      · have : 8 ≤ k - 8 * n := by omega
        simp [h1, h2, BitVec.getLsbD_of_ge _ _ this]

/-- Bits of `MemRead` (R43). -/
theorem getLsbD_memRead (m : Memory) (addr : Addr) (n k : Nat) (hn : n ≤ 8) :
    (memRead m addr n).getLsbD k =
      (decide (k < 8 * n) && (m.get (addr + BitVec.ofNat 64 (k / 8))).getLsbD (k % 8)) := by
  rw [memRead, BitVec.getLsbD_setWidth, getLsbD_gatherBytes _ _ _ _ hn]
  simp

/-- Byte `i` of `MemRead(addr, n)` is `M[addr + i]` (R43, R46). -/
theorem memRead_byte (m : Memory) (addr : Addr) (n i : Nat) (hn : n ≤ 8) (hi : i < n) :
    (memRead m addr n).extractLsb' (8 * i) 8 = m.get (addr + BitVec.ofNat 64 i) := by
  apply BitVec.eq_of_getLsbD_eq
  intro j hj
  rw [BitVec.getLsbD_extractLsb', getLsbD_memRead _ _ _ _ hn]
  simp [hj, show 8 * i + j < 8 * n by omega, show (8 * i + j) / 8 = i by omega, show (8 * i + j) % 8 = j by omega]

/-- Bits of byte `i` of a value (R44). -/
theorem getLsbD_byteOf (v : RegVal) (i j : Nat) : (byteOf v i).getLsbD j = (decide (j < 8) && v.getLsbD (8 * i + j)) := by
  simp [byteOf]

/-- Reading back what `MemWrite` wrote, at the same width (R43, R44, R47). -/
theorem memRead_memWrite (m : Memory) (addr : Addr) (v : RegVal) (n : Nat) (hn : n ≤ 8) :
    memRead (memWrite m addr v n) addr n = v.setWidth (8 * n) := by
  apply BitVec.eq_of_getLsbD_eq
  intro k hk
  rw [getLsbD_memRead _ _ _ _ hn, get_memWrite _ _ _ _ _ (by omega)]
  have hlt : k / 8 < 2 ^ 64 := by omega
  have hd : (addr + BitVec.ofNat 64 (k / 8) - addr).toNat = k / 8 := (offset_toNat _ _ _ hlt).1 rfl
  simp only [hd, show k / 8 < n by omega, if_true, getLsbD_byteOf, BitVec.getLsbD_setWidth, hk,
    decide_true, Bool.true_and, show 8 * (k / 8) + k % 8 = k by omega]
  simp [show k % 8 < 8 by omega]

/-- Reads that agree byte by byte agree. -/
theorem memRead_congr {m m' : Memory} {addr : Addr} {n : Nat}
    (h : ∀ i, i < n → m.get (addr + BitVec.ofNat 64 i) = m'.get (addr + BitVec.ofNat 64 i)) :
    memRead m addr n = memRead m' addr n := by
  have : gatherBytes m addr n = gatherBytes m' addr n := by
    induction n with
    | zero => rfl
    | succ n ih => rw [gatherBytes, gatherBytes, ih (fun i hi => h i (by omega)), h n (by omega)]
  rw [memRead, memRead, this]

/-- What a host's `load` leaves (R233): byte `i` at `base + i`, and the old byte elsewhere. -/
theorem get_loadBytes (m : Memory) (base b : Addr) (bs : List Byte) (hn : bs.length ≤ 2 ^ 64) :
    (loadBytes m base bs).get b = (bs[(b - base).toNat]?).getD (m.get b) := by
  induction bs generalizing m base with
  | nil => simp [loadBytes]
  | cons c rest ih =>
    simp only [List.length_cons] at hn
    rw [loadBytes, ih _ _ (by omega), get_set]
    have hb := b.isLt
    have ha := base.isLt
    by_cases h : b = base
    · subst h
      have hlen : rest.length ≤ 2 ^ 64 - 1 := by omega
      have h1 : (b - (b + 1)).toNat = 2 ^ 64 - 1 := by
        rw [BitVec.toNat_sub, BitVec.toNat_add]
        simp
        omega
      rw [h1, List.getElem?_eq_none (by omega)]
      simp
    · have h0 : b.toNat ≠ base.toNat := fun he => h (BitVec.eq_of_toNat_eq he)
      have h1 : (b - base).toNat = (b - (base + 1)).toNat + 1 := by
        rw [BitVec.toNat_sub, BitVec.toNat_sub, BitVec.toNat_add]
        simp
        omega
      rw [h1, if_neg h]
      simp

end Sys2Proof.Machine
end

