-- ==== Sys2Proof/Laws/State.lean ====
section
/-! SUPPORT. What each update of the state does to each field, and to each register and byte read through the
accessors. Later proofs cite these and unfold no record update. -/

namespace Sys2Proof.Machine

variable (s : State) (r q : Reg) (v : RegVal) (m : Memory) (a target : Addr) (word : Word)

/-! ### `setX` -/

@[simp] theorem setX_pc : (s.setX r v).pc = s.pc := by unfold State.setX; split <;> rfl
@[simp] theorem setX_mem : (s.setX r v).mem = s.mem := by unfold State.setX; split <;> rfl
@[simp] theorem setX_status : (s.setX r v).status = s.status := by unfold State.setX; split <;> rfl
@[simp] theorem setX_cfg : (s.setX r v).cfg = s.cfg := by unfold State.setX; split <;> rfl

/-- The slot behind `x0` is never written (R22). -/
@[simp] theorem setX_slot_zero : (s.setX r v).regs[0] = s.regs[0] := by
  unfold State.setX
  split
  · rfl
  · next h =>
    have : r.val ≠ 0 := fun h0 => h (Fin.ext h0)
    simp [this]

/-- R21: `x0` reads 0 in every state. -/
@[simp] theorem x_zero : s.x 0 = 0 := rfl

/-- R12, R21, R22: what every register reads after a write. -/
theorem x_setX : (s.setX r v).x q = if q = r ∧ r ≠ 0 then v else s.x q := by
  unfold State.x State.setX
  by_cases hr : r = 0 <;> by_cases hq : q = 0 <;>
    simp [hr, hq, Vector.getElem_set, Fin.ext_iff, eq_comm]

@[simp] theorem x_setX_self : (s.setX r v).x r = if r = 0 then 0 else v := by
  rw [x_setX]
  by_cases h : r = 0 <;> simp [h]

theorem x_setX_of_ne (h : q ≠ r) : (s.setX r v).x q = s.x q := by simp [x_setX, h]

@[simp] theorem setX_zero : s.setX 0 v = s := rfl

@[simp] theorem setX_byte : (s.setX r v).byte a = s.byte a := by simp [State.byte]

/-! ### `setMem` -/

@[simp] theorem setMem_regs : (s.setMem m).regs = s.regs := rfl
@[simp] theorem setMem_pc : (s.setMem m).pc = s.pc := rfl
@[simp] theorem setMem_mem : (s.setMem m).mem = m := rfl
@[simp] theorem setMem_status : (s.setMem m).status = s.status := rfl
@[simp] theorem setMem_cfg : (s.setMem m).cfg = s.cfg := rfl
@[simp] theorem setMem_x : (s.setMem m).x q = s.x q := rfl
@[simp] theorem setMem_byte : (s.setMem m).byte a = m.get a := rfl

/-! ### `advance` -/

@[simp] theorem advance_regs : s.advance.regs = s.regs := rfl
@[simp] theorem advance_pc : s.advance.pc = s.pc + 4 := rfl
@[simp] theorem advance_mem : s.advance.mem = s.mem := rfl
@[simp] theorem advance_status : s.advance.status = s.status := rfl
@[simp] theorem advance_cfg : s.advance.cfg = s.cfg := rfl
@[simp] theorem advance_x : s.advance.x q = s.x q := rfl
@[simp] theorem advance_byte : s.advance.byte a = s.byte a := rfl

/-! ### `transfer` -/

@[simp] theorem transfer_regs : (s.transfer target).regs = s.regs := rfl
@[simp] theorem transfer_mem : (s.transfer target).mem = s.mem := rfl
@[simp] theorem transfer_status : (s.transfer target).status = s.status := rfl
@[simp] theorem transfer_cfg : (s.transfer target).cfg = s.cfg := rfl
@[simp] theorem transfer_x : (s.transfer target).x q = s.x q := rfl
@[simp] theorem transfer_byte : (s.transfer target).byte a = s.byte a := rfl
theorem transfer_pc :
    (s.transfer target).pc = if s.cfg.selfTargetAdvances && target == s.pc then s.pc + 4 else target := rfl

/-! ### `raiseIllegalInstruction` -/

@[simp] theorem raise_regs : (s.raiseIllegalInstruction word).regs = s.regs := rfl
@[simp] theorem raise_pc : (s.raiseIllegalInstruction word).pc = s.pc := rfl
@[simp] theorem raise_mem : (s.raiseIllegalInstruction word).mem = s.mem := rfl
@[simp] theorem raise_status : (s.raiseIllegalInstruction word).status = .illegal s.pc word := rfl
@[simp] theorem raise_cfg : (s.raiseIllegalInstruction word).cfg = s.cfg := rfl
@[simp] theorem raise_x : (s.raiseIllegalInstruction word).x q = s.x q := rfl
@[simp] theorem raise_byte : (s.raiseIllegalInstruction word).byte a = s.byte a := rfl

/-! ### `resetAt` -/

@[simp] theorem resetAt_pc (cfg : Config) : (State.resetAt cfg a).pc = a := rfl
@[simp] theorem resetAt_mem (cfg : Config) : (State.resetAt cfg a).mem = [] := rfl
@[simp] theorem resetAt_status (cfg : Config) : (State.resetAt cfg a).status = .running := rfl
@[simp] theorem resetAt_cfg (cfg : Config) : (State.resetAt cfg a).cfg = cfg := rfl

end Sys2Proof.Machine
end

