-- ==== Sys2Proof/Laws/Numbers.lean ====
section
/-! SUPPORT. The bit-vector operations of the decoder and the meanings as the numbers the claims are written in
(00_scope.md R9 to R11). -/

namespace Sys2Proof.Machine

theorem extractLsb'_toNat (w : Word) (lo n : Nat) : (w.extractLsb' lo n).toNat = bitsOf w lo n := by
  simp [bitsOf, Nat.shiftRight_eq_div_pow]

theorem bitsOf_lt (w : Word) (lo n : Nat) : bitsOf w lo n < 2 ^ n := Nat.mod_lt _ (Nat.two_pow_pos n)

/-- R10: the signed reading of a bit vector from its unsigned one. -/
theorem toInt_eq_signedOf {n : Nat} (hn : 0 < n) (v : BitVec n) : v.toInt = signedOf n v.toNat := by
  rw [BitVec.toInt_eq_toNat_cond, signedOf]
  obtain ⟨k, rfl⟩ : ∃ k, n = k + 1 := ⟨n - 1, by omega⟩
  simp only [Nat.add_sub_cancel, pow_succ]
  split <;> split <;> (push_cast; omega)

/-- R9: concatenation, the first operand in the high bits. -/
theorem toNat_append_eq {m n : Nat} (x : BitVec m) (y : BitVec n) :
    (x ++ y).toNat = x.toNat * 2 ^ n + y.toNat := by
  rw [BitVec.toNat_append, Nat.shiftLeft_eq, ← Nat.shiftLeft_eq, Nat.shiftLeft_add_eq_or_of_lt y.isLt]

theorem sField_toNat (w : Word) : (sField w).toNat = bitsOf w 25 7 * 2 ^ 5 + bitsOf w 7 5 := by
  rw [sField, toNat_append_eq, extractLsb'_toNat, extractLsb'_toNat]

theorem bField_toNat (w : Word) :
    (bField w).toNat =
      bitsOf w 31 1 * 2 ^ 12 + bitsOf w 7 1 * 2 ^ 11 + bitsOf w 25 6 * 2 ^ 5 + bitsOf w 8 4 * 2 := by
  rw [bField, BitVec.toNat_cast]
  simp only [toNat_append_eq, extractLsb'_toNat, BitVec.toNat_ofNat]
  omega

theorem jField_toNat (w : Word) :
    (jField w).toNat =
      bitsOf w 31 1 * 2 ^ 20 + bitsOf w 12 8 * 2 ^ 12 + bitsOf w 20 1 * 2 ^ 11 + bitsOf w 21 10 * 2 := by
  rw [jField, BitVec.toNat_cast]
  simp only [toNat_append_eq, extractLsb'_toNat, BitVec.toNat_ofNat]
  omega

/-! ### Immediates at 64 bits (R69) -/

/-- R11: sign extension keeps the signed reading. -/
theorem imm64_toInt (c : Imm) : (imm64 c).toInt = c.toInt := BitVec.toInt_signExtend_of_le (by decide)

theorem immI_toInt (f : BitVec 12) : (immI f).toInt = f.toInt :=
  (imm64_toInt _).trans (BitVec.toInt_signExtend_of_le (by decide))

theorem immS_toInt (f : BitVec 12) : (immS f).toInt = f.toInt :=
  (imm64_toInt _).trans (BitVec.toInt_signExtend_of_le (by decide))

theorem immB_toInt (f : BitVec 13) : (immB f).toInt = f.toInt :=
  (imm64_toInt _).trans (BitVec.toInt_signExtend_of_le (by decide))

theorem immU_toInt (f : BitVec 20) : (immU f).toInt = f.toInt * 4096 := by
  have hf := f.isLt
  have h : (uContainer f).toNat = f.toNat * 2 ^ 12 := by
    rw [uContainer, toNat_append_eq, BitVec.toNat_ofNat, Nat.zero_mod, Nat.add_zero]
  rw [immU, imm64_toInt, toInt_eq_signedOf (by decide), toInt_eq_signedOf (by decide), h]
  unfold signedOf
  split <;> split <;> omega

theorem immJ_toInt (cfg : Config) (f : BitVec 21) :
    (immJ cfg f).toInt = if cfg.jalSext = true then f.toInt else (f.toNat : Int) := by
  have hf := f.isLt
  rw [immJ, imm64_toInt, jContainer]
  cases cfg.jalSext
  · have hm : f.toNat % 2 ^ 32 = f.toNat := Nat.mod_eq_of_lt (by omega)
    rw [if_neg (by decide), if_neg (by decide), toInt_eq_signedOf (by decide), BitVec.toNat_setWidth, signedOf, hm, if_pos (by omega)]
  · exact BitVec.toInt_signExtend_of_le (by decide)

/-- Bit `k` of an I-immediate at 64 bits: above bit 11 it is bit 11 (R63, R69). -/
theorem immI_getLsbD (f : BitVec 12) (k : Nat) (hk : k < 64) : (immI f).getLsbD k = f.getLsbD (min k 11) := by
  have h11 : f.msb = f[11] := by simp [BitVec.msb_eq_getLsbD_last]
  rw [immI, imm64, iContainer, BitVec.getLsbD_signExtend, BitVec.getLsbD_signExtend]
  by_cases h : k < 12
  · simp [hk, h, show k < 32 by omega, show min k 11 = k by omega]
  · by_cases h32 : k < 32
    · simp [hk, h, h32, show min k 11 = 11 by omega, h11]
    · have hm : (f.signExtend 32).msb = f.msb := by
        simp [BitVec.msb_signExtend]
      simp [hk, h32, hm, show min k 11 = 11 by omega, h11]

/-! ### Arithmetic modulo 2^64 (R10, R45) -/

theorem add_eq_addOffset (a b : BitVec 64) : a + b = addOffset a b.toInt := by
  rw [addOffset, BitVec.ofInt_add, BitVec.ofInt_toInt, BitVec.ofInt_toInt]

theorem fallsThrough_of_pc {s t : State} (h : t.pc = s.pc + 4) : FallsThrough s t := by
  rw [FallsThrough, h, BitVec.toNat_add]
  rfl

theorem link_eq (s : State) : s.link = BitVec.ofNat 64 (s.pc.toNat + 4) := by
  apply BitVec.eq_of_toNat_eq
  rw [State.link, BitVec.toNat_add, BitVec.toNat_ofNat]
  rfl

/-! ### Shifts, comparisons and alignment as numbers (R10, R100, R172) -/

theorem regShiftAmount_eq (v : RegVal) : regShiftAmount v = v.toNat % 64 := by simp [regShiftAmount]

theorem shiftLeft_eq_ofNat (v : RegVal) (n : Nat) : v <<< n = BitVec.ofNat 64 (v.toNat * 2 ^ n) := by
  apply BitVec.eq_of_toNat_eq
  simp [Nat.shiftLeft_eq]

theorem ushiftRight_eq_ofNat (v : RegVal) (n : Nat) : v >>> n = BitVec.ofNat 64 (v.toNat / 2 ^ n) := by
  apply BitVec.eq_of_toNat_eq
  rw [BitVec.toNat_ushiftRight, Nat.shiftRight_eq_div_pow, BitVec.toNat_ofNat, Nat.mod_eq_of_lt]
  exact lt_of_le_of_lt (Nat.div_le_self _ _) v.isLt

theorem sshiftRight_eq_ofInt (v : RegVal) (n : Nat) : v.sshiftRight n = BitVec.ofInt 64 (v.toInt / 2 ^ n) := by
  rw [BitVec.sshiftRight, Int.shiftRight_eq_div_pow]
  norm_cast

theorem boolVal_decide (c : Prop) [Decidable c] : boolVal (decide c) = if c then 1 else 0 := by
  by_cases h : c <;> simp [boolVal, h]

/-- R172: clearing bit 0 rounds down to an even number. -/
theorem clear_low_bit (v : RegVal) : v &&& ~~~1#64 = BitVec.ofNat 64 (v.toNat / 2 * 2) := by
  have h : v &&& ~~~1#64 = (v >>> 1) <<< 1 := by
    apply BitVec.eq_of_getLsbD_eq
    intro i hi
    rcases i with _ | i
    · simp
    · simp only [BitVec.getLsbD_and, BitVec.getLsbD_not, BitVec.getLsbD_shiftLeft, BitVec.getLsbD_ushiftRight, hi,
        decide_true, Bool.true_and, show 1 + (i + 1 - 1) = i + 1 by omega]
      rw [show (1#64).getLsbD (i + 1) = false by simp [BitVec.getLsbD_one]]
      simp
  rw [h, shiftLeft_eq_ofNat, ushiftRight_eq_ofNat]
  apply BitVec.eq_of_toNat_eq
  simp

/-- R11: a sign-extended value from its unsigned reading. -/
theorem signExtend_eq_ofInt {n : Nat} (hn : 0 < n) (v : BitVec n) :
    v.signExtend 64 = BitVec.ofInt 64 (signedOf n v.toNat) := by
  rw [← toInt_eq_signedOf hn]
  rfl

theorem loadAddress_eq (s : State) (rs1 : Reg) (imm : BitVec 12) :
    s.loadAddress rs1 imm = addOffset (s.x rs1) imm.toInt := by
  rw [State.loadAddress, add_eq_addOffset, immI_toInt]

theorem storeAddress_eq (s : State) (rs1 : Reg) (imm : BitVec 12) :
    s.storeAddress rs1 imm = addOffset (s.x rs1) imm.toInt := by
  rw [State.storeAddress, add_eq_addOffset, immS_toInt]

theorem branchTarget_eq (s : State) (off : BitVec 13) : s.branchTarget off = addOffset s.pc off.toInt := by
  rw [State.branchTarget, add_eq_addOffset, immB_toInt]

theorem jalTarget_eq (s : State) (off : BitVec 21) :
    s.jalTarget off = addOffset s.pc (if s.cfg.jalSext = true then off.toInt else (off.toNat : Int)) := by
  rw [State.jalTarget, add_eq_addOffset, immJ_toInt]

theorem byteOf_toNat (v : RegVal) (i : Nat) : (byteOf v i).toNat = v.toNat / 256 ^ i % 256 := by
  rw [byteOf, BitVec.toNat_setWidth, BitVec.toNat_ushiftRight, Nat.shiftRight_eq_div_pow, pow_mul]
  rfl

theorem ofNat_toNat_add (addr : Addr) (i : Nat) :
    BitVec.ofNat 64 ((addr.toNat + i) % 2 ^ 64) = addr + BitVec.ofNat 64 i := by
  apply BitVec.eq_of_toNat_eq
  simp

/-! ### The claims' frames from the state's updates -/

theorem writesRegister_setX (s : State) (rd : Reg) (v : RegVal) : WritesRegister rd v s (s.setX rd v) :=
  fun _ => x_setX ..

/-- An instruction that writes one register and advances (R100). -/
theorem computesInto_setX_advance (s : State) (rd : Reg) (v : RegVal) :
    ComputesInto rd v s (s.setX rd v).advance :=
  ⟨fun _ => by simp [x_setX], fallsThrough_of_pc (by simp), fun _ => by simp, by simp, by simp⟩

theorem landsOn_transfer (s : State) (target : Addr) : LandsOn target s (s.transfer target) := by
  rw [LandsOn]
  split
  · next h => exact fallsThrough_of_pc (by simp [transfer_pc, h.1, h.2])
  · next h =>
    rw [transfer_pc, if_neg]
    simpa [and_comm] using h

theorem landsOn_setX_transfer (s : State) (rd : Reg) (v : RegVal) (target : Addr) :
    LandsOn target s ((s.setX rd v).transfer target) := by
  have := landsOn_transfer (s.setX rd v) target
  simpa [LandsOn, FallsThrough] using this

/-- The shape of the stores (R150). -/
theorem storeStep_storesInto (n : Nat) (hn : n ≤ 4) (rs2 rs1 : Reg) (imm : BitVec 12) (s : State) :
    ∃ t, storeStep n rs2 rs1 imm s = .next t ∧ StoresInto n (s.storeAddress rs1 imm) (s.x rs2) s t := by
  refine ⟨_, rfl, ⟨fun i hi => ?_, fun b hb => ?_⟩, fallsThrough_of_pc rfl, fun _ => rfl, rfl, rfl⟩
  · rw [advance_byte, setMem_byte, get_memWrite _ _ _ _ _ (by omega), (offset_toNat _ _ i (by omega)).1 rfl, if_pos hi,
      byteOf_toNat]
  · rw [advance_byte, setMem_byte, get_memWrite _ _ _ _ _ (by omega), if_neg]
    · rfl
    · exact fun h => hb _ h ((offset_toNat _ _ _ (by omega)).2 rfl)

/-- The shape of the branches (R160), for a condition that decides `P`. -/
theorem branchStep_branchesTo (taken : Bool) (P : Prop) (off : BitVec 13) (s : State) (h : taken = true ↔ P) :
    ∃ t, branchStep taken off s = .next t ∧ BranchesTo P (addOffset s.pc off.toInt) s t := by
  refine ⟨_, rfl, fun hp => ?_, fun hp => ?_, ?_⟩
  · rw [if_pos (h.2 hp), branchTarget_eq]
    exact landsOn_transfer ..
  · rw [if_neg (fun hh => hp (h.1 hh))]
    exact fallsThrough_of_pc rfl
  · cases taken <;> exact ⟨fun _ => rfl, fun _ => rfl, rfl, rfl⟩

end Sys2Proof.Machine
end

