-- ==== Sys2Proof/Laws/PerInstr.lean ====
section
/-! SUPPORT. Statements for all instructions, one lemma for each constructor. The family `RowMatch`: the word an
instruction is encoded as lies in its row of spec/opcode_table.json. -/

namespace Sys2Proof.Laws

/-! ### The three masks of the table pick out opcode, funct3 and funct7 (R61) -/

theorem packR_masked (f7 : BitVec 7) (rs2 : BitVec 5) (rs1 : Reg) (f3 : BitVec 3) (rd : Reg) (opc : BitVec 7) :
    packR f7 rs2 rs1 f3 rd opc &&& 0xFE00707F = packR f7 0 0 f3 0 opc := by
  apply BitVec.eq_of_getLsbD_eq
  intro i hi
  simp only [packR, regBits, BitVec.getLsbD_and, BitVec.getLsbD_cast, BitVec.getLsbD_append]
  interval_cases i <;> simp

theorem packI_masked (imm : BitVec 12) (rs1 : Reg) (f3 : BitVec 3) (rd : Reg) (opc : BitVec 7) :
    packI imm rs1 f3 rd opc &&& 0x0000707F = packI 0 0 f3 0 opc := by
  apply BitVec.eq_of_getLsbD_eq
  intro i hi
  simp only [packI, regBits, BitVec.getLsbD_and, BitVec.getLsbD_cast, BitVec.getLsbD_append]
  interval_cases i <;> simp

theorem packS_masked (imm : BitVec 12) (rs2 rs1 : Reg) (f3 : BitVec 3) (opc : BitVec 7) :
    packS imm rs2 rs1 f3 opc &&& 0x0000707F = packI 0 0 f3 0 opc := by
  apply BitVec.eq_of_getLsbD_eq
  intro i hi
  simp only [packS, packI, regBits, BitVec.getLsbD_and, BitVec.getLsbD_cast, BitVec.getLsbD_append]
  interval_cases i <;> simp

theorem packB_masked (off : BitVec 13) (rs2 rs1 : Reg) (f3 : BitVec 3) (opc : BitVec 7) :
    packB off rs2 rs1 f3 opc &&& 0x0000707F = packI 0 0 f3 0 opc := by
  apply BitVec.eq_of_getLsbD_eq
  intro i hi
  simp only [packB, packI, regBits, BitVec.getLsbD_and, BitVec.getLsbD_cast, BitVec.getLsbD_append]
  interval_cases i <;> simp

theorem packU_masked (imm20 : BitVec 20) (rd : Reg) (opc : BitVec 7) :
    packU imm20 rd opc &&& 0x0000007F = packU 0 0 opc := by
  apply BitVec.eq_of_getLsbD_eq
  intro i hi
  simp only [packU, regBits, BitVec.getLsbD_and, BitVec.getLsbD_cast, BitVec.getLsbD_append]
  interval_cases i <;> simp

theorem packJ_masked (off : BitVec 21) (rd : Reg) (opc : BitVec 7) :
    packJ off rd opc &&& 0x0000007F = packU 0 0 opc := by
  apply BitVec.eq_of_getLsbD_eq
  intro i hi
  simp only [packJ, packU, regBits, BitVec.getLsbD_and, BitVec.getLsbD_cast, BitVec.getLsbD_append]
  interval_cases i <;> simp

namespace RowMatch

/-- The instruction's word agrees with its row's match on the row's mask. -/
def Statement (i : Instr) : Prop := encode i &&& i.mnemonic.rowMask = i.mnemonic.rowMatch

theorem add (rd rs1 rs2 : Reg) : Statement (.add rd rs1 rs2) :=
  (packR_masked _ _ _ _ _ _).trans rfl

theorem sub (rd rs1 rs2 : Reg) : Statement (.sub rd rs1 rs2) :=
  (packR_masked _ _ _ _ _ _).trans rfl

theorem sll (rd rs1 rs2 : Reg) : Statement (.sll rd rs1 rs2) :=
  (packR_masked _ _ _ _ _ _).trans rfl

theorem slt (rd rs1 rs2 : Reg) : Statement (.slt rd rs1 rs2) :=
  (packR_masked _ _ _ _ _ _).trans rfl

theorem sltu (rd rs1 rs2 : Reg) : Statement (.sltu rd rs1 rs2) :=
  (packR_masked _ _ _ _ _ _).trans rfl

theorem xor (rd rs1 rs2 : Reg) : Statement (.xor rd rs1 rs2) :=
  (packR_masked _ _ _ _ _ _).trans rfl

theorem srl (rd rs1 rs2 : Reg) : Statement (.srl rd rs1 rs2) :=
  (packR_masked _ _ _ _ _ _).trans rfl

theorem sra (rd rs1 rs2 : Reg) : Statement (.sra rd rs1 rs2) :=
  (packR_masked _ _ _ _ _ _).trans rfl

theorem or (rd rs1 rs2 : Reg) : Statement (.or rd rs1 rs2) :=
  (packR_masked _ _ _ _ _ _).trans rfl

theorem and (rd rs1 rs2 : Reg) : Statement (.and rd rs1 rs2) :=
  (packR_masked _ _ _ _ _ _).trans rfl

theorem addi (rd rs1 : Reg) (imm : BitVec 12) : Statement (.addi rd rs1 imm) :=
  (packI_masked _ _ _ _ _).trans rfl

theorem slli (rd rs1 : Reg) (shamt : BitVec 5) : Statement (.slli rd rs1 shamt) :=
  (packR_masked _ _ _ _ _ _).trans rfl

theorem slti (rd rs1 : Reg) (imm : BitVec 12) : Statement (.slti rd rs1 imm) :=
  (packI_masked _ _ _ _ _).trans rfl

theorem sltiu (rd rs1 : Reg) (imm : BitVec 12) : Statement (.sltiu rd rs1 imm) :=
  (packI_masked _ _ _ _ _).trans rfl

theorem xori (rd rs1 : Reg) (imm : BitVec 12) : Statement (.xori rd rs1 imm) :=
  (packI_masked _ _ _ _ _).trans rfl

theorem srli (rd rs1 : Reg) (shamt : BitVec 5) : Statement (.srli rd rs1 shamt) :=
  (packR_masked _ _ _ _ _ _).trans rfl

theorem srai (rd rs1 : Reg) (shamt : BitVec 5) : Statement (.srai rd rs1 shamt) :=
  (packR_masked _ _ _ _ _ _).trans rfl

theorem ori (rd rs1 : Reg) (imm : BitVec 12) : Statement (.ori rd rs1 imm) :=
  (packI_masked _ _ _ _ _).trans rfl

theorem andi (rd rs1 : Reg) (imm : BitVec 12) : Statement (.andi rd rs1 imm) :=
  (packI_masked _ _ _ _ _).trans rfl

theorem lb (rd rs1 : Reg) (imm : BitVec 12) : Statement (.lb rd rs1 imm) :=
  (packI_masked _ _ _ _ _).trans rfl

theorem lh (rd rs1 : Reg) (imm : BitVec 12) : Statement (.lh rd rs1 imm) :=
  (packI_masked _ _ _ _ _).trans rfl

theorem lw (rd rs1 : Reg) (imm : BitVec 12) : Statement (.lw rd rs1 imm) :=
  (packI_masked _ _ _ _ _).trans rfl

theorem lbu (rd rs1 : Reg) (imm : BitVec 12) : Statement (.lbu rd rs1 imm) :=
  (packI_masked _ _ _ _ _).trans rfl

theorem lhu (rd rs1 : Reg) (imm : BitVec 12) : Statement (.lhu rd rs1 imm) :=
  (packI_masked _ _ _ _ _).trans rfl

theorem sb (rs2 rs1 : Reg) (imm : BitVec 12) : Statement (.sb rs2 rs1 imm) :=
  (packS_masked _ _ _ _ _).trans rfl

theorem sh (rs2 rs1 : Reg) (imm : BitVec 12) : Statement (.sh rs2 rs1 imm) :=
  (packS_masked _ _ _ _ _).trans rfl

theorem sw (rs2 rs1 : Reg) (imm : BitVec 12) : Statement (.sw rs2 rs1 imm) :=
  (packS_masked _ _ _ _ _).trans rfl

theorem beq (rs1 rs2 : Reg) (off : BitVec 13) : Statement (.beq rs1 rs2 off) :=
  (packB_masked _ _ _ _ _).trans rfl

theorem bne (rs1 rs2 : Reg) (off : BitVec 13) : Statement (.bne rs1 rs2 off) :=
  (packB_masked _ _ _ _ _).trans rfl

theorem blt (rs1 rs2 : Reg) (off : BitVec 13) : Statement (.blt rs1 rs2 off) :=
  (packB_masked _ _ _ _ _).trans rfl

theorem bge (rs1 rs2 : Reg) (off : BitVec 13) : Statement (.bge rs1 rs2 off) :=
  (packB_masked _ _ _ _ _).trans rfl

theorem bltu (rs1 rs2 : Reg) (off : BitVec 13) : Statement (.bltu rs1 rs2 off) :=
  (packB_masked _ _ _ _ _).trans rfl

theorem bgeu (rs1 rs2 : Reg) (off : BitVec 13) : Statement (.bgeu rs1 rs2 off) :=
  (packB_masked _ _ _ _ _).trans rfl

theorem jal (rd : Reg) (off : BitVec 21) : Statement (.jal rd off) :=
  (packJ_masked _ _ _).trans rfl

theorem jalr (rd rs1 : Reg) (imm : BitVec 12) : Statement (.jalr rd rs1 imm) :=
  (packI_masked _ _ _ _ _).trans rfl

theorem lui (rd : Reg) (imm20 : BitVec 20) : Statement (.lui rd imm20) :=
  (packU_masked _ _ _).trans rfl

theorem auipc (rd : Reg) (imm20 : BitVec 20) : Statement (.auipc rd imm20) :=
  (packU_masked _ _ _).trans rfl

end RowMatch

end Sys2Proof.Laws
end

