-- ==== Sys2Proof/Laws/Step.lean ====
section
/-! SUPPORT. What an instruction, a step and a host operation can do, said once (30_encoding.md R78). -/

namespace Sys2Proof.Machine

/-- What every instruction does: it writes one register or stores 1, 2 or 4 bytes, and then goes on to the next word or
transfers control. It never faults and is never refused (R200). A branch writes nothing, which is a write of `x0`. -/
theorem exec_shape (i : Instr) (s : State) :
    (∃ rd v, exec i s = .next (s.setX rd v).advance) ∨
    (∃ rd v target, exec i s = .next ((s.setX rd v).transfer target)) ∨
    (∃ rs2 rs1 imm n, n ≤ 4 ∧
      exec i s = .next (s.setMem (memWrite s.mem (s.storeAddress rs1 imm) (s.x rs2) n)).advance) := by
  have branch (taken : Bool) (off : BitVec 13) :
      (∃ rd v, branchStep taken off s = .next (s.setX rd v).advance) ∨
      (∃ rd v target, branchStep taken off s = .next ((s.setX rd v).transfer target)) := by
    cases taken
    · exact .inl ⟨0, 0, rfl⟩
    · exact .inr ⟨0, 0, _, rfl⟩
  cases i with
  | add | sub | sll | slt | sltu | xor | srl | sra | or | and => exact .inl ⟨_, _, rfl⟩
  | addi | slli | slti | sltiu | xori | srli | srai | ori | andi => exact .inl ⟨_, _, rfl⟩
  | lb | lh | lw | lbu | lhu | lui | auipc => exact .inl ⟨_, _, rfl⟩
  | sb rs2 rs1 imm => exact .inr (.inr ⟨rs2, rs1, imm, 1, by decide, rfl⟩)
  | sh rs2 rs1 imm => exact .inr (.inr ⟨rs2, rs1, imm, 2, by decide, rfl⟩)
  | sw rs2 rs1 imm => exact .inr (.inr ⟨rs2, rs1, imm, 4, by decide, rfl⟩)
  | jal | jalr => exact .inr (.inl ⟨_, _, _, rfl⟩)
  | beq | bne | blt | bge | bltu | bgeu => exact (branch _ _).imp_right .inl

/-- Every instruction answers a next state, of the same run status and configuration, in which the memory is canonical
and the slot behind `x0` is 0 if they were so before. -/
theorem exec_next (i : Instr) (s : State) :
    ∃ t, exec i s = .next t ∧ t.status = s.status ∧ t.cfg = s.cfg ∧ t.regs[0] = s.regs[0] ∧
      (s.mem.wf → t.mem.wf) := by
  rcases exec_shape i s with ⟨rd, v, h⟩ | ⟨rd, v, target, h⟩ | ⟨rs2, rs1, imm, n, -, h⟩
  · exact ⟨_, h, by simp, by simp, by simp, by simp⟩
  · exact ⟨_, h, by simp, by simp, by simp, by simp⟩
  · exact ⟨_, h, by simp, by simp, by simp, fun hw => wf_memWrite hw _ _ _⟩

/-- R78, R190, R201: the four things a step can do. -/
theorem step_cases (s : State) :
    (∃ pc word, s.status = .illegal pc word ∧ step s = .next s) ∨
    (∃ i, s.status = .running ∧ variantOf s.fetch = .instr i ∧ step s = exec i s) ∨
    (s.status = .running ∧ variantOf s.fetch = .unrecognized ∧ s.cfg.strict = true ∧
      step s = .next (s.raiseIllegalInstruction s.fetch)) ∨
    (s.status = .running ∧ variantOf s.fetch = .unrecognized ∧ s.cfg.strict = false ∧ step s = .next s.advance) := by
  cases hs : s.status with
  | illegal pc word => exact .inl ⟨pc, word, rfl, by simp [step, hs, stoppedStep]⟩
  | running =>
    cases hv : variantOf s.fetch with
    | instr i => exact .inr (.inl ⟨i, rfl, rfl, by simp [step, hs, decode, hv]⟩)
    | unrecognized =>
      cases hc : s.cfg.strict with
      | true => exact .inr (.inr (.inl ⟨rfl, rfl, rfl, by simp [step, hs, decode, hv, execUnrecognized, hc]⟩))
      | false => exact .inr (.inr (.inr ⟨rfl, rfl, rfl, by simp [step, hs, decode, hv, execUnrecognized, hc]⟩))

/-- `step` of a session is `step` of its core, remembered (R212). -/
theorem sessionStep_running {h : Session} {c : State} (hr : h.core.status = .running)
    (hs : Sys2Proof.Machine.step h.core = .next c) : h.step = .next { core := c, stepped := true } := by
  simp [Session.step, hr, hs]

/-- `step` of a stopped session is nothing (R212). -/
theorem sessionStep_stopped {h : Session} {pc : Addr} {word : Word} (hs : h.core.status = .illegal pc word) :
    h.step = .next h := by
  simp [Session.step, hs]

/-- Every `step` of a session answers, with the core's next state. -/
theorem sessionStep_next (h : Session) :
    ∃ h', h.step = .next h' ∧ Sys2Proof.Machine.step h.core = .next h'.core ∧
      (h.core.status = .running → h'.stepped = true) ∧ (h.core.status ≠ .running → h' = h) := by
  cases hs : h.core.status with
  | running =>
    obtain ⟨t, ht⟩ : ∃ t, Sys2Proof.Machine.step h.core = .next t := by
      rcases step_cases h.core with ⟨_, _, _, h⟩ | ⟨i, _, _, h⟩ | ⟨_, _, _, h⟩ | ⟨_, _, _, h⟩
      · exact ⟨_, h⟩
      · exact (exec_next i _).imp fun _ ht => h.trans ht.1
      · exact ⟨_, h⟩
      · exact ⟨_, h⟩
    exact ⟨_, sessionStep_running hs ht, ht, fun _ => rfl, fun h => absurd rfl h⟩
  | illegal pc word =>
    refine ⟨h, sessionStep_stopped hs, ?_, fun h => ?_, fun _ => rfl⟩
    · simp [step, hs, stoppedStep]
    · cases h

/-- One step of a run of the host's machine. -/
theorem core_run_succ {s c : State} (k : Nat) (h : Sys2Proof.Machine.step s = .next c) :
    Host.Core.run Sys2Proof.core (k + 1) s = Host.Core.run Sys2Proof.core k c := by
  have h' : Sys2Proof.core.step s = .next c := h
  have e := @Host.Core.run.eq_2 Sys2Proof.core s k
  rw [h'] at e
  exact e

/-- `run` of a stopped session is nothing (R212). -/
theorem sessionRun_stopped {h : Session} {pc : Addr} {word : Word} (hs : h.core.status = .illegal pc word) (n : Nat)
    (c : Option Nat) : h.run n c = { session := h, completed := 0 } := by
  rcases n with _ | n
  · rw [Session.run]
  · rcases c with _ | (_ | c) <;> simp [Session.run, hs]

/-- `run(n + 1)` of a running session whose step leads to `h'` (R212). -/
theorem sessionRun_succ {h h' : Session} (n : Nat) (hr : h.core.status = .running) (hs : h.step = .next h') :
    h.run (n + 1) none =
      match h'.core.status with
      | .running => { session := (h'.run n none).session, completed := (h'.run n none).completed + 1 }
      | .illegal _ _ => { session := h', completed := 0 } := by
  cases h1 : h'.core.status <;> simp [Session.run, hr, hs, h1]

end Sys2Proof.Machine
end

