-- ==== Sys2Proof/Tests/Slice0.lean ====
section
/-! SUPPORT. Tests of the model, expected results from the spec's own words and vectors (40_register_alu.md to
47_unrecognized.md, 95_test_vectors.md), and witnesses that the hypotheses of the statements can be met. -/

namespace Sys2Proof.Tests

open Sys2Proof.Machine

/-! ### States -/

/-- The vectors' setting (95_test_vectors.md): `pc` 0x1000, `x1` and `x2` given, everything else 0. -/
def start (x1 x2 : RegVal) (cfg : Config := Config.default) : State :=
  ((State.resetAt cfg 0x1000).setX 1 x1).setX 2 x2

/-- One step of a state with a word placed at its `pc`. -/
def runWord (w : Word) (s : State) : State :=
  match step (s.withFetchWord 32 w.toNat) with
  | .next t => t
  | .fault _ => s
  | .refused _ => s

/-- From `x1` and `x2`, the word gives `x3` and goes on to 0x1004. -/
def gives (w : Word) (x1 x2 x3 : RegVal) : Bool :=
  let t := runWord w (start x1 x2)
  t.x 3 == x3 && t.pc == 0x1004 && t.x 1 == x1 && t.x 2 == x2

/-- From `x1` and `x2`, the word leads to `pc` and writes neither register. -/
def leadsTo (cfg : Config) (w : Word) (x1 x2 pc : RegVal) : Bool :=
  let t := runWord w (start x1 x2 cfg)
  t.pc == pc && t.x 1 == x1 && t.x 2 == x2

/-- The jump word leads to `pc` and leaves `x1`. -/
def jumps (cfg : Config) (w : Word) (x1 pc x1' : RegVal) : Bool :=
  let t := runWord w (start x1 0 cfg)
  t.pc == pc && t.x 1 == x1' && t.x 2 == 0

/-- The memory of the load vectors. -/
def loadMemory : Memory := [(0x2000, 0x80), (0x2001, 0xFF), (0x2002, 0x34), (0x2003, 0x82)]

/-- From `x1` over that memory, the load gives `x3`. -/
def loads (w : Word) (x1 x3 : RegVal) : Bool :=
  let t := runWord w ((start x1 0).setMem loadMemory)
  t.x 3 == x3 && t.pc == 0x1004

/-- From `x1` and `x2`, the store leaves these bytes beside the instruction's own. -/
def stores (w : Word) (x1 x2 : RegVal) (bytes : List (Addr × Byte)) : Bool :=
  let t := runWord w (start x1 x2)
  t.pc == 0x1004 && bytes.all (fun c => t.byte c.1 == c.2) && t.mem.length == bytes.length + ((start x1 x2).withFetchWord 32 w.toNat).mem.length

/-- The word stops a strict core where it is, and passes as a no-op in a compatibility one. -/
def unrecognized (w : Word) : Bool :=
  let t := runWord w (start 7 8)
  let u := runWord w (start 7 8 { Config.default with strict := false })
  t.status == .illegal 0x1000 w && t.pc == 0x1000 && t.x 1 == 7 &&
    u.status == .running && u.pc == 0x1004 && u.x 1 == 7

/-! ### WellFormed: a smoke test for each check -/

theorem test_wf_refuses_odd_beq : (Instr.beq 1 2 3).wf = false := by decide
theorem test_wf_refuses_odd_bne : (Instr.bne 1 2 (-1)).wf = false := by decide
theorem test_wf_refuses_odd_blt : (Instr.blt 1 2 1).wf = false := by decide
theorem test_wf_refuses_odd_bge : (Instr.bge 1 2 5).wf = false := by decide
theorem test_wf_refuses_odd_bltu : (Instr.bltu 1 2 7).wf = false := by decide
theorem test_wf_refuses_odd_bgeu : (Instr.bgeu 1 2 4095).wf = false := by decide
theorem test_wf_refuses_odd_jal : (Instr.jal 1 2053).wf = false := by decide
theorem test_wf_takes_even_offsets :
    (Instr.beq 1 2 (-4096)).wf = true ∧ (Instr.bgeu 1 2 4094).wf = true ∧ (Instr.jal 0 2052).wf = true := by decide

/-! ### Decode and encode: every constructor, words from 40_register_alu.md to 46_upper_immediate.md -/

/-- The word decodes to the instruction, and the instruction is encoded as the word. -/
def stands (w : Word) (i : Instr) : Bool := variantOf w == .instr i && encode i == w

theorem test_decode_register_alu :
    stands 0x002081B3 (.add 3 1 2) ∧ stands 0x402081B3 (.sub 3 1 2) ∧ stands 0x002091B3 (.sll 3 1 2) ∧
    stands 0x0020A1B3 (.slt 3 1 2) ∧ stands 0x0020B1B3 (.sltu 3 1 2) ∧ stands 0x0020C1B3 (.xor 3 1 2) ∧
    stands 0x0020D1B3 (.srl 3 1 2) ∧ stands 0x4020D1B3 (.sra 3 1 2) ∧ stands 0x0020E1B3 (.or 3 1 2) ∧
    stands 0x0020F1B3 (.and 3 1 2) := by decide

theorem test_decode_immediate_alu :
    stands 0x00510093 (.addi 1 2 5) ∧ stands 0x00409193 (.slli 3 1 4) ∧ stands 0xFFF0A193 (.slti 3 1 (-1)) ∧
    stands 0xFFF0B193 (.sltiu 3 1 (-1)) ∧ stands 0xFFF0C193 (.xori 3 1 (-1)) ∧ stands 0x0010D193 (.srli 3 1 1) ∧
    stands 0x4010D193 (.srai 3 1 1) ∧ stands 0x1000E193 (.ori 3 1 0x100) ∧ stands 0x0FF0F193 (.andi 3 1 0xFF) := by
  decide

theorem test_decode_loads_stores :
    stands 0x00008183 (.lb 3 1 0) ∧ stands 0x00009183 (.lh 3 1 0) ∧ stands 0xFFC0A183 (.lw 3 1 (-4)) ∧
    stands 0x0000C183 (.lbu 3 1 0) ∧ stands 0x0000D183 (.lhu 3 1 0) ∧ stands 0x00208423 (.sb 2 1 8) ∧
    stands 0x00209423 (.sh 2 1 8) ∧ stands 0xFE20AFA3 (.sw 2 1 (-1)) := by decide

theorem test_decode_branches :
    stands 0x00208863 (.beq 1 2 16) ∧ stands 0xFE209CE3 (.bne 1 2 (-8)) ∧ stands 0x0020C463 (.blt 1 2 8) ∧
    stands 0x0020D463 (.bge 1 2 8) ∧ stands 0x0020E463 (.bltu 1 2 8) ∧ stands 0x0020F463 (.bgeu 1 2 8) ∧
    stands 0x7E208FE3 (.beq 1 2 4094) ∧ stands 0x80208063 (.beq 1 2 (-4096)) := by decide

/-- 0xFFDFF0EF is `jal x1, -4`. -/
theorem test_decode_jumps_upper :
    stands 0x0050006F (.jal 0 2052) ∧ stands 0xFFDFF0EF (.jal 1 (-4)) ∧ stands 0x001280E7 (.jalr 1 5 1) ∧
    stands 0x123451B7 (.lui 3 0x12345) ∧ stands 0xFFFFF197 (.auipc 3 0xFFFFF) := by decide

/-- 95_test_vectors.md section 2: containers and their 64-bit values, at the ends of their ranges. -/
theorem test_immediates :
    immediate false 0x80000013 = 0xFFFFF800 ∧ immediate false 0x7FF00013 = 0x000007FF ∧
    immediate false 0xFE000FA3 = 0xFFFFFFFF ∧ immediate false 0x80000023 = 0xFFFFF800 ∧
    immediate false 0x80000063 = 0xFFFFF000 ∧ immediate false 0x7E000FE3 = 0x00000FFE ∧
    immediate false 0x800000B7 = 0x80000000 ∧ imm64 0x80000000 = 0xFFFFFFFF80000000 ∧
    immediate false 0x0000106F = 0x00001000 ∧ immediate false 0x7FFFF06F = 0x000FFFFE ∧
    immediate false 0xFFFFF06F = 0x001FFFFE ∧ immediate true 0xFFFFF06F = 0xFFFFFFFE ∧
    immediate false 0x00100073 = 1 ∧ immediate false 0x002081B3 = 0 := by decide

/-- 95_test_vectors.md V4. -/
theorem test_sign_extend : imm64 (iContainer 0xFFF) = 0xFFFFFFFFFFFFFFFF ∧ iContainer 0xFFF = 0xFFFFFFFF := by decide

/-! ### One step of each instruction: the vectors of 95_test_vectors.md, by their names there -/

theorem test_add : gives 0x002081B3 0x7FFFFFFFFFFFFFFF 1 0x8000000000000000 ∧ gives 0x002081B3 0xFFFFFFFFFFFFFFFF 1 0 := by
  decide
theorem test_sub : gives 0x402081B3 0 1 0xFFFFFFFFFFFFFFFF ∧ gives 0x402081B3 0x8000000000000000 1 0x7FFFFFFFFFFFFFFF := by
  decide
theorem test_sll : gives 0x002091B3 1 0x40 1 ∧ gives 0x002091B3 0xFF 0x7FFFFFFFFFFFFF08 0xFF00 := by decide
theorem test_slt : gives 0x0020A1B3 0x8000000000000000 0x7FFFFFFFFFFFFFFF 1 ∧ gives 0x0020A1B3 5 5 0 := by decide
theorem test_sltu : gives 0x0020B1B3 0xFFFFFFFFFFFFFFFF 0 0 ∧ gives 0x0020B1B3 0 1 1 := by decide
theorem test_xor : gives 0x0020C1B3 0xFFFFFFFFFFFFFFFF 0x1234 0xFFFFFFFFFFFFEDCB := by decide
theorem test_srl : gives 0x0020D1B3 0x8000000000000000 0x3F 1 ∧ gives 0x0020D1B3 0x8000000000000000 0x40 0x8000000000000000 := by
  decide
theorem test_sra : gives 0x4020D1B3 0x8000000000000000 1 0xC000000000000000 ∧ gives 0x4020D1B3 0x7FFFFFFFFFFFFFFF 0x3E 1 := by
  decide
theorem test_or : gives 0x0020E1B3 0xF0 0xF 0xFF := by decide
theorem test_and : gives 0x0020F1B3 0xF0F0 0xFF00 0xF000 := by decide
theorem test_addi : gives 0x80008193 0 9 0xFFFFFFFFFFFFF800 ∧ gives 0x00108193 0xFFFFFFFFFFFFFFFF 9 0 := by decide
theorem test_slli : gives 0x01F09193 0xFFFFFFFF 9 0x7FFFFFFF80000000 ∧ gives 0x00109193 0x8000000000000001 9 2 := by decide
theorem test_slti : gives 0x0000A193 0xFFFFFFFFFFFFFFFF 9 1 ∧ gives 0xFFF0A193 0 9 0 := by decide
theorem test_sltiu : gives 0xFFF0B193 0 9 1 ∧ gives 0xFFF0B193 0xFFFFFFFFFFFFFFFF 9 0 := by decide
theorem test_xori : gives 0xFFF0C193 0x1234 9 0xFFFFFFFFFFFFEDCB := by decide
theorem test_srli : gives 0x01F0D193 0x8000000000000000 9 0x100000000 := by decide
theorem test_srai : gives 0x41F0D193 0x8000000000000000 9 0xFFFFFFFF00000000 ∧ gives 0x41F0D193 0x7FFFFFFF00000000 9 0xFFFFFFFE := by
  decide
theorem test_ori : gives 0x8000E193 0x100 9 0xFFFFFFFFFFFFF900 := by decide
theorem test_andi : gives 0xFF00F193 0x12345678 9 0x12345670 := by decide

theorem test_lb : loads 0x00008183 0x2003 0xFFFFFFFFFFFFFF82 ∧ loads 0x00008183 0x2002 0x34 := by decide
theorem test_lh : loads 0x00009183 0x2001 0x34FF ∧ loads 0x00009183 0x2002 0xFFFFFFFFFFFF8234 := by decide
theorem test_lw : loads 0xFFF0A183 0x2001 0xFFFFFFFF8234FF80 ∧ loads 0x0000A183 0xFFFFFFFFFFFFFFFE 0 := by decide
theorem test_lbu : loads 0x0000C183 0x2003 0x82 := by decide
theorem test_lhu : loads 0x0000D183 0x2000 0xFF80 := by decide

theorem test_sb : stores 0x7E208FA3 0x2010 0x5A [(0x280F, 0x5A)] := by decide
theorem test_sh : stores 0xFE209FA3 0x2000 0xBEEF [(0x1FFF, 0xEF), (0x2000, 0xBE)] := by decide
theorem test_sw :
    stores 0x0020A023 0xFFFFFFFFFFFFFFFE 0xAABBCCDD
      [(0, 0xBB), (1, 0xAA), (0xFFFFFFFFFFFFFFFE, 0xDD), (0xFFFFFFFFFFFFFFFF, 0xCC)] := by decide
theorem test_sw_negative :
    stores 0x8020A023 0x2000 0x1020304 [(0x1800, 4), (0x1801, 3), (0x1802, 2), (0x1803, 1)] := by decide

theorem test_beq : leadsTo .default 0x00208863 5 5 0x1010 ∧ leadsTo .default 0x00208863 5 6 0x1004 := by decide
theorem test_beq_itself :
    leadsTo .default 0x00208063 0 0 0x1000 ∧
    leadsTo { Config.default with selfTargetAdvances := true } 0x00208063 0 0 0x1004 := by decide
theorem test_bne : leadsTo .default 0xFE2098E3 5 6 0xFF0 ∧ leadsTo .default 0xFE2098E3 5 5 0x1004 := by decide
theorem test_blt :
    leadsTo .default 0x0020C463 0xFFFFFFFFFFFFFFFF 0 0x1008 ∧ leadsTo .default 0x0020C463 0 0xFFFFFFFFFFFFFFFF 0x1004 := by
  decide
theorem test_bge :
    leadsTo .default 0x0020D463 5 5 0x1008 ∧ leadsTo .default 0x0020D463 0x8000000000000000 0 0x1004 := by decide
theorem test_bltu :
    leadsTo .default 0x0020E463 0 0xFFFFFFFFFFFFFFFF 0x1008 ∧ leadsTo .default 0x0020E463 0xFFFFFFFFFFFFFFFF 0 0x1004 := by
  decide
theorem test_bgeu :
    leadsTo .default 0x0020F463 0xFFFFFFFFFFFFFFFF 0 0x1008 ∧ leadsTo .default 0x0020F463 0 0 0x1008 := by decide

/-- J4, J5, J7: a word with bit 31 set, under both settings of `P_JAL_SEXT`. -/
theorem test_jal :
    jumps .default 0xFFDFF0EF 0 0x200FFC 0x1004 ∧
    jumps { Config.default with jalSext := true } 0xFFDFF0EF 0 0xFFC 0x1004 ∧
    jumps { Config.default with jalSext := true } 0x800000EF 0 0xFFFFFFFFFFF01000 0x1004 := by decide
/-- J2: the §8 word, which writes nothing. -/
theorem test_jal_x0 : jumps .default 0x0050006F 6 0x1804 6 := by decide
/-- J11, J12: `rd = rs1`, under both settings of `P_JALR_LINK_FIRST`. -/
theorem test_jalr :
    jumps .default 0x010080E7 0x2000 0x1014 0x1004 ∧
    jumps { Config.default with jalrLinkFirst := false } 0x010080E7 0x2000 0x2010 0x1004 := by decide
/-- J13, J16, J17: a negative offset, and a target that is the jump itself once bit 0 is cleared. -/
theorem test_jalr_x0 :
    jumps .default 0xFFF08067 0x2000 0x1FFE 0x2000 ∧ jumps .default 0x00008067 0x1001 0x1000 0x1001 ∧
    jumps { Config.default with selfTargetAdvances := true } 0x00008067 0x1001 0x1004 0x1001 := by decide
theorem test_lui : gives 0x800001B7 0 0 0xFFFFFFFF80000000 ∧ gives 0x7FFFF1B7 0 0 0x7FFFF000 := by decide
theorem test_auipc : gives 0xFFFFF197 0 0 0 ∧ gives 0x80000197 0 0 0xFFFFFFFF80001000 := by decide

/-- 95_test_vectors.md section 3: `x0` stays 0, and `pc` moves on. -/
theorem test_write_x0_discarded :
    (runWord 0x00208033 (start 1 2)).x 0 = 0 ∧ (runWord 0x00208033 (start 1 2)).pc = 0x1004 ∧
    (runWord 0x12345037 (start 1 2)).x 0 = 0 := by decide
/-- 95_test_vectors.md sections 3 and 8: a source that is the destination, and the wrap of `pc`. -/
theorem test_same_register_and_wrap :
    (runWord 0x001080B3 (start 0x8000000000000000 0)).x 1 = 0 ∧
    (runWord 0x0040006F { start 0 0 with pc := 0xFFFFFFFFFFFFFFFC }).pc = 0 ∧
    (runWord 0x00000013 { start 0 0 with pc := 0xFFFFFFFFFFFFFFFC }).pc = 0 := by decide

/-- 95_test_vectors.md section 10. -/
theorem test_unrecognized_words :
    unrecognized 0x00000000 ∧ unrecognized 0xFFFFFFFF ∧ unrecognized 0x00000073 ∧ unrecognized 0x00100073 ∧
    unrecognized 0x0000000F ∧ unrecognized 0x02208133 ∧ unrecognized 0x4020C1B3 ∧ unrecognized 0x0210D193 := by decide
theorem test_unrecognized_words_more :
    unrecognized 0x02009193 ∧ unrecognized 0x6010D193 ∧ unrecognized 0x0000B183 ∧ unrecognized 0x0000E183 ∧
    unrecognized 0x0000B023 ∧ unrecognized 0x0000C023 ∧ unrecognized 0x0020A063 ∧ unrecognized 0x00001067 ∧
    unrecognized 0x0010019B ∧ unrecognized 0x0020F0BB := by decide

/-- The interface's words as the opcode table numbers them. -/
theorem test_decodeTableWord :
    decodeTableWord 32 0x00510093 = some (.addi 1 2 5) ∧ decodeTableWord 32 0x00000073 = none := by decide

/-! ### The host interface and the assembler's view -/

/-- 95_test_vectors.md P7, strict: the run stops at the ECALL word after one instruction. -/
def bootedP7 (cfg : Config) : Session :=
  { core := (State.resetAt cfg 0).setMem (loadBytes [] 0 (layOutWord 0x00100093 ++ layOutWord 0x00000073 ++ layOutWord 0x00108093))
    stepped := false }

theorem test_run_strict :
    (bootedP7 .default).run 3 none =
      { session := { core := ((bootedP7 .default).core.setX 1 1).advance.raiseIllegalInstruction 0x00000073, stepped := true }
        completed := 1 } := by decide

/-- P7 in compatibility mode. -/
theorem test_run_compatibility :
    ((bootedP7 { Config.default with strict := false }).run 3 none).completed = 3 ∧
    ((bootedP7 { Config.default with strict := false }).run 3 none).session.core.x 1 = 2 ∧
    ((bootedP7 { Config.default with strict := false }).run 3 none).session.core.pc = 0xC := by decide

/-- R212, R213: no budget, or a cancellation at once, leaves everything as it was. -/
theorem test_run_nothing :
    (bootedP7 .default).run 0 none = { session := bootedP7 .default, completed := 0 } ∧
    (bootedP7 .default).run 3 (some 0) = { session := bootedP7 .default, completed := 0 } := by decide

theorem test_load_refused_after_step :
    ((bootedP7 .default).run 1 none).session.load 0 [1] = .refused .loadAfterFirstStep := by rfl

/-- R81: `li` at the ends of its ranges. 0x7FFFF800 has no expansion. -/
theorem test_li :
    Pseudo.expand (.li 5 2047) = some [.addi 5 0 2047] ∧
    Pseudo.expand (.li 5 2048) = some [.lui 5 1, .addi 5 5 (-2048)] ∧
    Pseudo.expand (.li 5 0x7FFFF800) = none := by decide

/-- P2's constant: `lui x2, 0x89ABD` and `addi x2, x2, -529`. -/
theorem test_li_P2 : Pseudo.expand (.li 2 0xFFFFFFFF89ABCDEF) = some [.lui 2 0x89ABD, .addi 2 2 (-529)] := by decide

theorem test_asm :
    asmText .default (.sw 2 1 (-1)) = "sw x2, -1(x1)" ∧ asmText .default (.jal 0 2052) = "jal x0, 2052" := by
  constructor <;> rfl

/-! ### Witnesses: the hypotheses of the statements can be met, clause by clause -/

theorem witness_ImmediatesOfClassesISB :
    opcode 0x80000013#32 = 0b0010011#7 ∧ opcode 0x00008183#32 = 0b0000011#7 ∧ opcode 0x001280E7#32 = 0b1100111#7 ∧
    opcode 0x00100073#32 = 0b1110011#7 ∧ opcode 0x80000023#32 = 0b0100011#7 ∧ opcode 0x80000063#32 = 0b1100011#7 := by
  decide

theorem witness_ImmediatesOfClassesUJAndNone :
    opcode 0xFFFFF037#32 = 0b0110111#7 ∧ opcode 0xFFFFF197#32 = 0b0010111#7 ∧ opcode 0xFFFFF06F#32 = 0b1101111#7 ∧
    bitsOf 0x7FFFF06F#32 31 1 = 0 ∧ opcode 0x7FFFF06F#32 = 0b1101111#7 ∧ opcode 0x00000000#32 = 0#7 ∧
    opcode 0x002081B3#32 = 0b0110011#7 := by decide

theorem witness_ImmediatesWidenAsSigned :
    variantOf 0xFFFFF06F#32 = .instr (.jal 0 0x1FFFFE) ∧
    operand64 .default (.jal 0 0x1FFFFE) = some (0x1FFFFE : RegVal) ∧
    variantOf 0x80000037#32 = .instr (.lui 0 0x80000) ∧
    operand64 .default (.lui 0 0x80000) = some (0xFFFFFFFF80000000 : RegVal) := by decide

theorem witness_DispatchFollowsTheOpcodeTable :
    0x4010D193#32 &&& Mnemonic.SRAI.rowMask = Mnemonic.SRAI.rowMatch ∧ Instr.mnemonic (.srai 3 1 1) = .SRAI ∧
    variantOf 0x6010D193#32 = .unrecognized := by decide

theorem witness_DecodeOfEncodeIsTheInstruction : (Instr.bgeu 31 30 (-4096)).wf = true := by decide

theorem witness_EncodeOfDecodeIsTheWord : variantOf 0xFE209CE3#32 = .instr (.bne 1 2 (-8)) := by decide

theorem witness_PlacedWordRunsItsInstruction : (Instr.jal 31 (-2)).wf = true := by decide

/-- One word for each clause, at the edge of the space it names. -/
theorem witness_UnrecognizedCombinations :
    (opcode 0x02208133#32 = 0b0110011#7 ∧ funct7 0x02208133#32 = 0b0000001#7) ∧
    (opcode 0x4020C1B3#32 = 0b0110011#7 ∧ funct7 0x4020C1B3#32 = 0b0100000#7 ∧ funct3 0x4020C1B3#32 = 0b100#3) ∧
    (opcode 0x02009193#32 = 0b0010011#7 ∧ funct3 0x02009193#32 = 0b001#3 ∧ funct7 0x02009193#32 = 0b0000001#7) ∧
    (opcode 0x6010D193#32 = 0b0010011#7 ∧ funct3 0x6010D193#32 = 0b101#3 ∧ funct7 0x6010D193#32 = 0b0110000#7) ∧
    (opcode 0x0000B183#32 = 0b0000011#7 ∧ funct3 0x0000B183#32 = 0b011#3) ∧
    (opcode 0x0000C023#32 = 0b0100011#7 ∧ (funct3 0x0000C023#32).toNat = 4) ∧
    (opcode 0x0020A063#32 = 0b1100011#7 ∧ funct3 0x0020A063#32 = 0b010#3) ∧
    (opcode 0x00001067#32 = 0b1100111#7 ∧ funct3 0x00001067#32 = 0b001#3) ∧ opcode 0x0000000F#32 = 0b0001111#7 := by
  decide

theorem witness_MemReadIsLittleEndian : (4 = 1 ∨ 4 = 2 ∨ 4 = 4) ∧ (1 = 1 ∨ 1 = 2 ∨ 1 = 4) := by decide

/-- An address outside the two bytes of a store that wraps at the top of the space. -/
theorem witness_MemWriteSpreadsTheBytes :
    (2 = 1 ∨ 2 = 2 ∨ 2 = 4) ∧ ∀ i, i < 2 → (1 : Addr) ≠ BitVec.ofNat 64 (((0xFFFFFFFFFFFFFFFF : Addr).toNat + i) % 2 ^ 64) := by decide

theorem witness_FetchIsLittleEndian : ∀ i, i < 4 → State.reset.byte (State.reset.pc + BitVec.ofNat 64 i) = 0 := by decide

theorem witness_StoreIntoTheNextInstructionIsFetched : (start 0x1000 7).storeAddress 1 4 = (start 0x1000 7).pc + 4 := by
  decide

/-- Two states that differ behind `x0` only. -/
def behindX0 : State := { State.reset with regs := State.reset.regs.set 0 5 }

theorem witness_StepCannotTellEqualViewsApart : SameView State.reset behindX0 ∧ State.reset ≠ behindX0 :=
  ⟨⟨by decide, rfl, fun _ => rfl, rfl, rfl⟩, by decide⟩

theorem witness_EqualViewsAreEqualStates :
    (runWord 0x0020A023 (start 0x2000 7)).Inv ∧ SameView (runWord 0x0020A023 (start 0x2000 7)) (runWord 0x0020A023 (start 0x2000 7)) :=
  ⟨by decide, fun _ => rfl, rfl, fun _ => rfl, rfl, rfl⟩

/-- The two sides of a clause of each `Selects…`: R, shift, I, S, B, U and J. -/
theorem witness_Selects :
    (opcode 0x4020D1B3#32 = 0b0110011#7 ∧ funct3 0x4020D1B3#32 = 0b101#3 ∧ funct7 0x4020D1B3#32 = 0b0100000#7) ∧
    (opcode 0x4010D193#32 = 0b0010011#7 ∧ funct3 0x4010D193#32 = 0b101#3 ∧ funct7 0x4010D193#32 = 0b0100000#7) ∧
    (opcode 0x0FF0F193#32 = 0b0010011#7 ∧ funct3 0x0FF0F193#32 = 0b111#3) ∧
    (opcode 0xFE20AFA3#32 = 0b0100011#7 ∧ funct3 0xFE20AFA3#32 = 0b010#3) ∧
    (opcode 0x0020F463#32 = 0b1100011#7 ∧ funct3 0x0020F463#32 = 0b111#3) ∧
    opcode 0x123451B7#32 = 0b0110111#7 ∧ opcode 0xFFDFF0EF#32 = 0b1101111#7 := by decide

/-- The bytes of a load that wraps at the top of the address space. -/
theorem witness_Loads :
    ∃ (s : State) (b : Nat → Nat),
      (∀ k, b k = (s.byte (addOffset (s.x 1) (0 : BitVec 12).toInt + BitVec.ofNat 64 k)).toNat) ∧ b 0 = 0 ∧ b 2 = 0x34 :=
  ⟨(start 0xFFFFFFFFFFFFFFFE 0).setMem [(0, 0x34)], _, fun _ => rfl, by decide, by decide⟩

/-- An address outside the four bytes stored, next to them on either side. -/
theorem witness_Stores :
    (∀ i, i < 4 → (0x2004 : Addr) ≠ (start 0x2000 7).storeAddress 1 0 + BitVec.ofNat 64 i) ∧
    ∀ i, i < 4 → (0x1FFF : Addr) ≠ (start 0x2000 7).storeAddress 1 0 + BitVec.ofNat 64 i := by decide

/-- Both outcomes of each condition, and a branch to itself under both settings. -/
theorem witness_branches :
    (start 5 5).x 1 = (start 5 5).x 2 ∧ (start 5 6).x 1 ≠ (start 5 6).x 2 ∧
    ((start (-1) 0).x 1).toInt < ((start (-1) 0).x 2).toInt ∧ ¬ ((start (-1) 0).x 1).toNat < ((start (-1) 0).x 2).toNat ∧
    addOffset (start 5 5).pc (0 : BitVec 13).toInt = (start 5 5).pc := by decide

theorem witness_JumpAndLinkRegister :
    (start 0x2000 0).cfg.jalrLinkFirst = true ∧ BitVec.ofNat 64 ((start 0x2000 0).pc.toNat + 4) = (0x1004 : RegVal) ∧
    (start 0x2000 0 { Config.default with jalrLinkFirst := false }).x 1 = 0x2000 := by decide

theorem witness_LinkOrderMattersOnlyForOneRegister :
    (runWord 0x010080E7 (start 0x2000 0)).pc ≠
      (runWord 0x010080E7 (start 0x2000 0 { Config.default with jalrLinkFirst := false })).pc := by decide

/-- A running core before `addi x1, x2, 5`. -/
def beforeAddi : State := (start 3 10).withFetchWord 32 0x00510093

theorem witness_StepRunsTheDecodedInstruction :
    beforeAddi.status = .running ∧ variantOf beforeAddi.fetch = .instr (.addi 1 2 5) := by decide

/-- A running core before ECALL, in either mode. -/
def beforeEcall (strict : Bool) : State := (start 3 10 { Config.default with strict := strict }).withFetchWord 32 0x73

theorem witness_UnrecognizedWordStopsOrPasses :
    ((beforeEcall true).status = .running ∧ variantOf (beforeEcall true).fetch = .unrecognized ∧
      (beforeEcall true).cfg.strict = true) ∧
    (beforeEcall false).status = .running ∧ variantOf (beforeEcall false).fetch = .unrecognized ∧
      (beforeEcall false).cfg.strict = false := by decide

/-- A core that ECALL has stopped. -/
def stopped : State := (beforeEcall true).raiseIllegalInstruction 0x73

theorem witness_OnlyUnrecognizedWordsStop :
    step (beforeEcall true) = .next stopped ∧ stopped.status ≠ (beforeEcall true).status := ⟨by rfl, by decide⟩

theorem witness_StoppedCoreStaysStopped :
    (Session.mk stopped true).core.status = .illegal 0x1000 0x73 := by decide

theorem witness_PcMovesToTheNextWordOtherwise :
    (beforeAddi.status = .running ∧ step beforeAddi = .next (beforeAddi.setX 1 15).advance ∧
      opcode beforeAddi.fetch = 0b0010011#7 ∧ (beforeAddi.setX 1 15).advance.status = .running) ∧
    step (beforeEcall true) = .next stopped ∧ opcode (beforeEcall true).fetch = 0b1110011#7 ∧
      stopped.status ≠ .running :=
  ⟨⟨by decide, by rfl, by decide, by decide⟩, by rfl, by decide, by decide⟩

theorem witness_OnlyStoresChangeMemory :
    (runWord 0x0020A023 (start 0x2000 7)).byte 0x2000 ≠ ((start 0x2000 7).withFetchWord 32 0x0020A023).byte 0x2000 := by
  decide

theorem witness_OnlyTheDestinationRegisterChanges :
    step beforeAddi = .next (beforeAddi.setX 1 15).advance ∧ (beforeAddi.setX 1 15).advance.x 1 ≠ beforeAddi.x 1 :=
  ⟨by rfl, by decide⟩

theorem witness_EvenPcStaysEven :
    beforeAddi.pc.toNat % 2 = 0 ∧ step beforeAddi = .next (beforeAddi.setX 1 15).advance := ⟨by decide, by rfl⟩

theorem witness_SelfBranchLoopsForever :
    ((start 0 0).withFetchWord 32 0x63).fetch = 0x00000063#32 ∧
    ((start 0 0).withFetchWord 32 0x63).cfg.selfTargetAdvances = false ∧
    ((start 0 0 { Config.default with selfTargetAdvances := true }).withFetchWord 32 0x63).fetch = 0x00000063#32 := by
  decide

theorem witness_StepKeepsTheInvariant :
    beforeAddi.Inv ∧ step beforeAddi = .next (beforeAddi.setX 1 15).advance := ⟨by decide, by rfl⟩

/-- A state that has stopped meets the record, and so does every running one. -/
theorem witness_StepKeepsTheStopRecord :
    stopped.StopRecord ∧ step stopped = .next stopped ∧ (beforeEcall true).StopRecord := by
  refine ⟨fun pc word h => ?_, by rfl, fun pc word h => ?_⟩
  · have h' : RunStatus.illegal 0x1000 0x73 = .illegal pc word := h
    cases h'
    decide
  · have h' : RunStatus.running = .illegal pc word := h
    cases h'

theorem witness_HostOperationsKeepTheInvariants :
    (Session.construct .default 0).Inv ∧
    (Session.construct .default 0).perform (.load 8 [1, 2]) =
      .next { core := (State.resetAt .default 0).loadImage 8 [1, 2], stepped := false } := by
  refine ⟨⟨by decide, fun pc word h => ?_, fun _ => rfl⟩, rfl⟩
  have h' : RunStatus.running = .illegal pc word := h
  cases h'

theorem witness_ConfigurationIsFixed :
    exec (.addi 1 2 5) beforeAddi = .next (beforeAddi.setX 1 15).advance ∧
    (Session.construct .default 0).perform (.reset 4) = .next (Session.construct .default 4) := ⟨by rfl, rfl⟩

/-- A buffer that wraps at the top of the address space, and a session that has stepped. -/
theorem witness_LoadOnlyBeforeTheFirstStep :
    (Session.construct .default 0).stepped = false ∧ ([1, 2, 3] : List Byte).length ≤ 2 ^ 64 ∧
    (∀ i, i < 3 → (1 : Addr) ≠ BitVec.ofNat 64 (((0xFFFFFFFFFFFFFFFE : Addr).toNat + i) % 2 ^ 64)) ∧
    (Session.mk beforeAddi false).step = .next { core := (beforeAddi.setX 1 15).advance, stepped := true } :=
  ⟨rfl, by decide, by decide, by rfl⟩

theorem witness_BootedImageIsFetched : ([9, 9] : List Byte).length + 4 ≤ 2 ^ 64 := by decide

theorem witness_RunIsRepeatedStep : ((bootedP7 .default).run 3 none).completed < 3 := by decide

theorem witness_RunsCompose : ((bootedP7 .default).run 1 none).session.core.status = .running := by decide

/-- R232: one sector of a one-sector disk fits exactly; a smaller destination and a shorter source fail. -/
theorem witness_LoaderCopiesWholeSectors :
    ((1 : Nat) * 2048 ≤ 2048 ∧ 0 * 2048 + 1 * 2048 ≤ (List.replicate 2048 (7 : Byte)).length) ∧
    2047 < (1 : Nat) * 2048 ∧ (List.replicate 2048 (7 : Byte)).length < 1 * 2048 + 1 * 2048 := by
  rw [List.length_replicate]
  omega

theorem witness_LoadImmediateExpansion :
    fitsImm12 (-2048) = true ∧ fitsImm12 2047 = true ∧ fitsImm12 2048 = false ∧ hiLoFits 2048 = true ∧
    hiLoFits 0x7FFFF7FF = true ∧ hiLoFits 0xFFFFFFFF80000000 = true := by decide

end Sys2Proof.Tests
end

section
/-! The register file (R12, R21, R22): what reading and writing a register does to the whole state. -/

namespace Sys2Proof.Machine

/-- R200, R29: a register write raises no event and writes no parameter. -/
theorem keepsRun_setX (s : State) (r : Reg) (v : RegVal) : KeepsRun s (s.setX r v) :=
  ⟨setX_status s r v, setX_cfg s r v⟩

/-- Settles O11, from the laws that say what `State.setX` does to each register and each field. -/
theorem registerZeroIsHardwired : Obligations.RegisterZeroIsHardwired := by
  intro s r v
  refine ⟨x_zero s, setX_zero s v, ?register, ?pc, ?mem, ?run⟩
  case register => exact writesRegister_setX s r v
  case pc => exact setX_pc s r v
  case mem => exact setX_mem s r v
  case run => exact keepsRun_setX s r v

end Sys2Proof.Machine
end

section
/-! The host's view of a state (R212): it fixes the data of a canonical state (R33), and every update that an
instruction makes keeps equal views equal. -/

namespace Sys2Proof.Machine

/-! ### The parts of a view -/

section
variable {s t : State} (h : SameView s t)
include h

theorem SameView.x_eq (r : Reg) : s.x r = t.x r := h.1 r
theorem SameView.pc_eq : s.pc = t.pc := h.2.1
theorem SameView.byte_eq (a : Addr) : s.byte a = t.byte a := h.2.2.1 a
theorem SameView.status_eq : s.status = t.status := h.2.2.2.1
theorem SameView.cfg_eq : s.cfg = t.cfg := h.2.2.2.2

/-! ### What is computed from a view -/

theorem SameView.memRead_eq (a : Addr) (n : Nat) : memRead s.mem a n = memRead t.mem a n :=
  memRead_congr fun _ _ => h.byte_eq _

theorem SameView.fetch_eq : s.fetch = t.fetch := by
  rw [State.fetch, State.fetch, h.pc_eq, h.memRead_eq]

theorem SameView.link_eq : s.link = t.link := by rw [State.link, State.link, h.pc_eq]

theorem SameView.loadAddress_eq (rs1 : Reg) (imm : BitVec 12) : s.loadAddress rs1 imm = t.loadAddress rs1 imm := by
  rw [State.loadAddress, State.loadAddress, h.x_eq]

theorem SameView.storeAddress_eq (rs1 : Reg) (imm : BitVec 12) :
    s.storeAddress rs1 imm = t.storeAddress rs1 imm := by
  rw [State.storeAddress, State.storeAddress, h.x_eq]

theorem SameView.branchTarget_eq (off : BitVec 13) : s.branchTarget off = t.branchTarget off := by
  rw [State.branchTarget, State.branchTarget, h.pc_eq]

theorem SameView.jalTarget_eq (off : BitVec 21) : s.jalTarget off = t.jalTarget off := by
  rw [State.jalTarget, State.jalTarget, h.pc_eq, h.cfg_eq]

theorem SameView.jalrTarget_eq (rs1 : Reg) (imm : BitVec 12) : s.jalrTarget rs1 imm = t.jalrTarget rs1 imm := by
  rw [State.jalrTarget, State.jalrTarget, h.x_eq]

/-! ### Updates keep equal views equal -/

theorem SameView.setX (r : Reg) (v : RegVal) : SameView (s.setX r v) (t.setX r v) :=
  ⟨fun q => by rw [x_setX, x_setX, h.x_eq], by simpa using h.pc_eq, fun a => by simpa using h.byte_eq a,
    by simpa using h.status_eq, by simpa using h.cfg_eq⟩

theorem SameView.advance : SameView s.advance t.advance :=
  ⟨h.x_eq, by simp [h.pc_eq], h.byte_eq, h.status_eq, h.cfg_eq⟩

theorem SameView.transfer (target : Addr) : SameView (s.transfer target) (t.transfer target) :=
  ⟨h.x_eq, by rw [transfer_pc, transfer_pc, h.pc_eq, h.cfg_eq], h.byte_eq, h.status_eq, h.cfg_eq⟩

theorem SameView.raiseIllegalInstruction (word : Word) :
    SameView (s.raiseIllegalInstruction word) (t.raiseIllegalInstruction word) :=
  ⟨h.x_eq, h.pc_eq, h.byte_eq, by simp [h.pc_eq], h.cfg_eq⟩

theorem SameView.setMem_memWrite (a : Addr) (v : RegVal) (n : Nat) :
    SameView (s.setMem (memWrite s.mem a v n)) (t.setMem (memWrite t.mem a v n)) := by
  refine ⟨h.x_eq, h.pc_eq, fun b => ?_, h.status_eq, h.cfg_eq⟩
  induction n with
  | zero => exact h.byte_eq b
  | succ n ih =>
    simp only [setMem_byte] at ih
    simp only [setMem_byte, memWrite, get_set, ih]

end

/-! ### A view and the canonical form are the whole state (R33) -/

/-- The registers the host reads and the slot behind `x0` are the register file. -/
theorem regs_eq_of_x_eq {s t : State} (hx : ∀ r, s.x r = t.x r) (h0 : s.regs[0] = t.regs[0]) : s.regs = t.regs := by
  apply Vector.ext
  intro i hi
  rcases Nat.eq_zero_or_pos i with rfl | hpos
  · exact h0
  · have hr : (⟨i, hi⟩ : Reg) ≠ 0 := fun h => hpos.ne' (congrArg Fin.val h)
    simpa [State.x, hr] using hx ⟨i, hi⟩

/-- A state is its fields. -/
theorem state_eq_of_fields {s t : State} (hregs : s.regs = t.regs) (hpc : s.pc = t.pc) (hmem : s.mem = t.mem)
    (hstatus : s.status = t.status) (hcfg : s.cfg = t.cfg) : s = t := by
  cases s
  cases t
  simp_all

/-- Settles O18: a canonical memory is fixed by its bytes, and the register file by the registers and its slot 0. -/
theorem equalViewsAreEqualStates : Obligations.EqualViewsAreEqualStates := by
  intro s t hs ht hview
  obtain ⟨hsmem, hs0⟩ := hs
  obtain ⟨htmem, ht0⟩ := ht
  have hregs : s.regs = t.regs := regs_eq_of_x_eq hview.x_eq (hs0.trans ht0.symm)
  have hmem : s.mem = t.mem := memory_ext hsmem htmem hview.byte_eq
  exact state_eq_of_fields hregs hview.pc_eq hmem hview.status_eq hview.cfg_eq

end Sys2Proof.Machine
end

section
/-! Noninterference: a step from equal views reaches equal views (R22, R33). -/

namespace Sys2Proof.Machine

/-- Both outcomes are next states, and the host cannot tell these apart. -/
def ReachSameView (o o' : Host.Outcome State Fault Refusal) : Prop :=
  ∃ t t', o = .next t ∧ o' = .next t' ∧ SameView t t'

theorem SameView.reach {t t' : State} (h : SameView t t') : ReachSameView (.next t) (.next t') :=
  ⟨t, t', rfl, rfl, h⟩

section
variable {s s' : State} (h : SameView s s')
include h

/-- The families that write one register and go on (R100, R120, R180). -/
theorem SameView.reach_setX_advance (rd : Reg) {v v' : RegVal} (hv : v = v') :
    ReachSameView (.next (s.setX rd v).advance) (.next (s'.setX rd v').advance) :=
  hv ▸ (h.setX rd v).advance.reach

/-- The loads (R140). -/
theorem SameView.reach_loadStep (n : Nat) (widen : BitVec (8 * n) → RegVal) (rd rs1 : Reg) (imm : BitVec 12) :
    ReachSameView (loadStep n widen rd rs1 imm s) (loadStep n widen rd rs1 imm s') :=
  h.reach_setX_advance rd (by rw [h.loadAddress_eq, h.memRead_eq])

/-- The stores (R150). -/
theorem SameView.reach_storeStep (n : Nat) (rs2 rs1 : Reg) (imm : BitVec 12) :
    ReachSameView (storeStep n rs2 rs1 imm s) (storeStep n rs2 rs1 imm s') := by
  rw [storeStep, storeStep, h.storeAddress_eq, h.x_eq]
  exact (h.setMem_memWrite _ _ n).advance.reach

/-- The branches (R160). -/
theorem SameView.reach_branchStep {taken taken' : Bool} (off : BitVec 13) (ht : taken = taken') :
    ReachSameView (branchStep taken off s) (branchStep taken' off s') := by
  subst ht
  rw [branchStep, branchStep, h.branchTarget_eq]
  cases taken
  · exact h.advance.reach
  · exact (h.transfer _).reach

/-- JAL (R171). -/
theorem SameView.reach_execJal (rd : Reg) (off : BitVec 21) : ReachSameView (execJal rd off s) (execJal rd off s') := by
  rw [execJal, execJal, h.link_eq, h.jalTarget_eq]
  exact ((h.setX rd _).transfer _).reach

/-- JALR, under either order of the link write and the read of the base (R172). -/
theorem SameView.reach_execJalr (rd rs1 : Reg) (imm : BitVec 12) :
    ReachSameView (execJalr rd rs1 imm s) (execJalr rd rs1 imm s') := by
  have hlinked : SameView (s.setX rd s.link) (s'.setX rd s'.link) := h.link_eq ▸ h.setX rd _
  have hbase : SameView (if s.cfg.jalrLinkFirst then s.setX rd s.link else s)
      (if s'.cfg.jalrLinkFirst then s'.setX rd s'.link else s') := by
    rw [h.cfg_eq]
    split
    · exact hlinked
    · exact h
  rw [execJalr, execJalr, hbase.jalrTarget_eq]
  exact (hlinked.transfer _).reach

/-- Every instruction: its operands are read from the view. -/
theorem SameView.reach_exec (i : Instr) : ReachSameView (exec i s) (exec i s') := by
  have hx := h.x_eq
  cases i with
  | add | sub | sll | slt | sltu | xor | srl | sra | or | and =>
    exact h.reach_setX_advance _ (by rw [hx, hx])
  | addi | slli | slti | sltiu | xori | srli | srai | ori | andi => exact h.reach_setX_advance _ (by rw [hx])
  | lb | lh | lw | lbu | lhu => exact h.reach_loadStep ..
  | sb | sh | sw => exact h.reach_storeStep ..
  | beq | bne | blt | bge | bltu | bgeu => exact h.reach_branchStep _ (by rw [hx, hx])
  | jal => exact h.reach_execJal ..
  | jalr => exact h.reach_execJalr ..
  | lui => exact h.reach_setX_advance _ rfl
  | auipc => exact h.reach_setX_advance _ (by rw [h.pc_eq])

/-- An unrecognized word, in either mode (R190). -/
theorem SameView.reach_execUnrecognized (word : Word) :
    ReachSameView (execUnrecognized word s) (execUnrecognized word s') := by
  rw [execUnrecognized, execUnrecognized, h.cfg_eq]
  split
  · exact (h.raiseIllegalInstruction word).reach
  · exact h.advance.reach

/-- A step: the status that decides whether it is taken and the word it fetches are in the view (R78). -/
theorem SameView.reach_step : ReachSameView (step s) (step s') := by
  rw [step, step, ← h.status_eq, ← h.cfg_eq, ← h.fetch_eq]
  cases s.status with
  | illegal pc word => exact h.reach
  | running =>
    cases (decode s.cfg.jalSext s.fetch).variant with
    | instr i => exact h.reach_exec i
    | unrecognized => exact h.reach_execUnrecognized _

end

/-- Settles O49: every update is made from what the view holds, so each kind of step keeps equal views equal. -/
theorem stepCannotTellEqualViewsApart : Obligations.StepCannotTellEqualViewsApart :=
  fun _ _ h => h.reach_step

end Sys2Proof.Machine
end

section
/-! Which register an instruction names as its destination and whether it transfers control (30_encoding.md R62, R78),
read from the instruction and from its word. -/

namespace Sys2Proof

/-- The register an instruction names as `rd`; stores and branches have none (R62). -/
def Instr.dest : Instr → Option Reg
  | .add rd _ _ | .sub rd _ _ | .sll rd _ _ | .slt rd _ _ | .sltu rd _ _ => some rd
  | .xor rd _ _ | .srl rd _ _ | .sra rd _ _ | .or rd _ _ | .and rd _ _ => some rd
  | .addi rd _ _ | .slli rd _ _ | .slti rd _ _ | .sltiu rd _ _ | .xori rd _ _ => some rd
  | .srli rd _ _ | .srai rd _ _ | .ori rd _ _ | .andi rd _ _ => some rd
  | .lb rd _ _ | .lh rd _ _ | .lw rd _ _ | .lbu rd _ _ | .lhu rd _ _ => some rd
  | .jal rd _ | .jalr rd _ _ | .lui rd _ | .auipc rd _ => some rd
  | .sb _ _ _ | .sh _ _ _ | .sw _ _ _ => none
  | .beq _ _ _ | .bne _ _ _ | .blt _ _ _ | .bge _ _ _ | .bltu _ _ _ | .bgeu _ _ _ => none

/-- The branches and jumps: the instructions that may execute `pc <- target` (R160, R170). -/
def Instr.transfers : Instr → Bool
  | .beq _ _ _ | .bne _ _ _ | .blt _ _ _ | .bge _ _ _ | .bltu _ _ _ | .bgeu _ _ _ => true
  | .jal _ _ | .jalr _ _ _ => true
  | _ => false

/-! ### Read from the word -/

section
variable {w : Word} {i : Instr}

theorem decodeOp_shape (h : decodeOp w = .instr i) : i.dest = some (rdField w) ∧ i.transfers = false := by
  unfold decodeOp at h
  split at h <;> cases h <;> exact ⟨rfl, rfl⟩

theorem decodeOpImm_shape (h : decodeOpImm w = .instr i) : i.dest = some (rdField w) ∧ i.transfers = false := by
  unfold decodeOpImm at h
  split at h
  case h_2 | h_6 => split at h <;> cases h <;> exact ⟨rfl, rfl⟩
  all_goals cases h <;> exact ⟨rfl, rfl⟩

theorem decodeLoad_shape (h : decodeLoad w = .instr i) : i.dest = some (rdField w) ∧ i.transfers = false := by
  unfold decodeLoad at h
  split at h <;> cases h <;> exact ⟨rfl, rfl⟩

theorem decodeStore_shape (h : decodeStore w = .instr i) : i.dest = none ∧ i.transfers = false := by
  unfold decodeStore at h
  split at h <;> cases h <;> exact ⟨rfl, rfl⟩

theorem decodeBranch_dest (h : decodeBranch w = .instr i) : i.dest = none := by
  unfold decodeBranch at h
  split at h <;> cases h <;> rfl

theorem decodeJalr_dest (h : decodeJalr w = .instr i) : i.dest = some (rdField w) := by
  unfold decodeJalr at h
  split at h <;> cases h
  rfl

/-- The destination is the word's rd field, outside the store and branch opcodes (R62, R73). -/
theorem variantOf_dest (h : variantOf w = .instr i) :
    i.dest = if opcode w = 0b0100011#7 ∨ opcode w = 0b1100011#7 then none else some (rdField w) := by
  rcases variantOf_instr_cases w h with ⟨ho, hd⟩ | ⟨ho, hd⟩ | ⟨ho, hd⟩ | ⟨ho, hd⟩ | ⟨ho, hd⟩ | ⟨ho, hd⟩ |
    ⟨ho, rfl⟩ | ⟨ho, rfl⟩ | ⟨ho, rfl⟩ <;> simp only [ho]
  · exact (decodeOp_shape hd).1
  · exact (decodeOpImm_shape hd).1
  · exact (decodeLoad_shape hd).1
  · exact (decodeStore_shape hd).1
  · exact decodeBranch_dest hd
  · exact decodeJalr_dest hd
  · rfl
  · rfl
  · rfl

/-- A word outside the three control-transfer opcodes is no branch or jump (R72, R73). -/
theorem variantOf_not_transfers (h : variantOf w = .instr i) (hbranch : opcode w ≠ 0b1100011#7)
    (hjal : opcode w ≠ 0b1101111#7) (hjalr : opcode w ≠ 0b1100111#7) : i.transfers = false := by
  rcases variantOf_instr_cases w h with ⟨-, hd⟩ | ⟨-, hd⟩ | ⟨-, hd⟩ | ⟨-, hd⟩ | ⟨ho, -⟩ | ⟨ho, -⟩ |
    ⟨ho, -⟩ | ⟨-, rfl⟩ | ⟨-, rfl⟩
  · exact (decodeOp_shape hd).2
  · exact (decodeOpImm_shape hd).2
  · exact (decodeLoad_shape hd).2
  · exact (decodeStore_shape hd).2
  · exact absurd ho hbranch
  · exact absurd ho hjalr
  · exact absurd ho hjal
  · rfl
  · rfl

end

end Sys2Proof

namespace Sys2Proof.Machine

/-! ### What `exec` does to the destination and to `pc` -/

/-- `exec_shape` with the written register named, and branches and stores apart, which name none. -/
theorem exec_shape_of_dest (i : Instr) (s : State) :
    (∃ rd v, i.dest = some rd ∧ i.transfers = false ∧ exec i s = .next (s.setX rd v).advance) ∨
    (∃ rd v target, i.dest = some rd ∧ i.transfers = true ∧ exec i s = .next ((s.setX rd v).transfer target)) ∨
    (∃ taken off, i.dest = none ∧ i.transfers = true ∧ exec i s = branchStep taken off s) ∨
    (∃ m, i.dest = none ∧ i.transfers = false ∧ exec i s = .next (s.setMem m).advance) := by
  cases i with
  | add | sub | sll | slt | sltu | xor | srl | sra | or | and => exact .inl ⟨_, _, rfl, rfl, rfl⟩
  | addi | slli | slti | sltiu | xori | srli | srai | ori | andi => exact .inl ⟨_, _, rfl, rfl, rfl⟩
  | lb | lh | lw | lbu | lhu | lui | auipc => exact .inl ⟨_, _, rfl, rfl, rfl⟩
  | jal | jalr => exact .inr (.inl ⟨_, _, _, rfl, rfl, rfl⟩)
  | beq | bne | blt | bge | bltu | bgeu => exact .inr (.inr (.inl ⟨_, _, rfl, rfl, rfl⟩))
  | sb | sh | sw => exact .inr (.inr (.inr ⟨_, rfl, rfl, rfl⟩))

section
variable {i : Instr} {s t : State} (he : exec i s = .next t)
include he

/-- R29, R200: an instruction raises no event and writes no parameter. -/
theorem exec_keepsRun : KeepsRun s t := by
  obtain ⟨t', ht', hstatus, hcfg, -⟩ := exec_next i s
  cases he.symm.trans ht'
  exact ⟨hstatus, hcfg⟩

/-- R22, R23: an instruction leaves every register but its destination. -/
theorem exec_x_of_ne_dest {r : Reg} (hr : i.dest ≠ some r) : t.x r = s.x r := by
  rcases exec_shape_of_dest i s with ⟨rd, v, hd, -, h⟩ | ⟨rd, v, target, hd, -, h⟩ | ⟨taken, off, -, -, h⟩ |
    ⟨m, -, -, h⟩ <;> cases he.symm.trans h
  · exact x_setX_of_ne s rd r v fun hrd => hr (hrd ▸ hd)
  · exact x_setX_of_ne s rd r v fun hrd => hr (hrd ▸ hd)
  · cases taken <;> rfl
  · rfl

/-- R27: an instruction that is no branch or jump goes on to the next word. -/
theorem exec_pc_of_not_transfers (hi : i.transfers = false) : t.pc = s.pc + 4 := by
  rcases exec_shape_of_dest i s with ⟨rd, v, -, -, h⟩ | ⟨_, _, _, -, htr, -⟩ | ⟨_, _, -, htr, -⟩ | ⟨m, -, -, h⟩
  · cases he.symm.trans h
    exact congrArg (· + 4) (setX_pc s rd v)
  · cases hi.symm.trans htr
  · cases hi.symm.trans htr
  · cases he.symm.trans h
    rfl

end

/-- Settles O42, by the four things a step can do: only an instruction writes a register, and only its destination. -/
theorem onlyTheDestinationRegisterChanges : Obligations.OnlyTheDestinationRegisterChanges := by
  intro s t r hstep hchange
  rcases step_cases s with ⟨pc, word, -, he⟩ | ⟨i, hrun, hvar, he⟩ | ⟨-, -, -, he⟩ | ⟨-, -, -, he⟩
  · cases hstep.symm.trans he
    exact absurd rfl hchange
  · have hdest : i.dest = some r := not_not.1 fun h => hchange (exec_x_of_ne_dest (he.symm.trans hstep) h)
    have hr0 : r ≠ 0 := by
      rintro rfl
      exact hchange rfl
    rw [variantOf_dest hvar] at hdest
    split at hdest
    · cases hdest
    · next hop =>
      obtain ⟨hstore, hbranch⟩ := not_or.1 hop
      cases hdest
      exact ⟨hrun, rfl, hr0, hstore, hbranch, by simp [hvar]⟩
  · cases hstep.symm.trans he
    exact absurd rfl hchange
  · cases hstep.symm.trans he
    exact absurd rfl hchange

/-- Settles O40, by the four things a step of a running core can do. -/
theorem pcMovesToTheNextWordOtherwise : Obligations.PcMovesToTheNextWordOtherwise := by
  intro s t hrun hstep hbranch hjal hjalr
  rcases step_cases s with ⟨pc, word, hstop, -⟩ | ⟨i, -, hvar, he⟩ | ⟨-, -, -, he⟩ | ⟨-, -, -, he⟩
  case inl => cases hrun.symm.trans hstop
  case inr.inl =>
    have hexec : exec i s = .next t := he.symm.trans hstep
    have hpc : t.pc = s.pc + 4 := exec_pc_of_not_transfers hexec (variantOf_not_transfers hvar hbranch hjal hjalr)
    obtain ⟨hstatus, -⟩ := exec_keepsRun hexec
    exact ⟨fun _ => fallsThrough_of_pc hpc, fun hstopped => absurd (hstatus.trans hrun) hstopped⟩
  case inr.inr.inl =>
    cases hstep.symm.trans he
    exact ⟨fun hr => (by cases hr), fun _ => rfl⟩
  case inr.inr.inr =>
    cases hstep.symm.trans he
    exact ⟨fun _ => fallsThrough_of_pc rfl, fun hstopped => absurd hrun hstopped⟩

end Sys2Proof.Machine
end

section
/-! What stays as it is whatever the host does: a stopped core (R31, R201), the configuration (R29), and, for any
property that every step keeps, that `run` keeps it. -/

namespace Sys2Proof.Machine

/-- Settles O39: a stopped core is a fixed point of its step, and so of every run of steps. -/
theorem stoppedCoreStaysStopped : Obligations.StoppedCoreStaysStopped := by
  intro h pc word hstop
  have hstep : step h.core = .next h.core := by
    obtain ⟨h', -, hcore, -, hsame⟩ := sessionStep_next h
    rwa [hsame (by simp [hstop])] at hcore
  refine ⟨sessionStep_stopped hstop, sessionRun_stopped hstop, fun k => ?_⟩
  induction k with
  | zero => rfl
  | succ k ih => rw [core_run_succ k hstep, ih]

/-- `run` takes steps and does nothing else: what every step keeps, it keeps (R212). -/
theorem sessionRun_keeps {P : Session → Prop} (hstep : ∀ h h' : Session, P h → h.step = .next h' → P h')
    (h : Session) (n : Nat) (c : Option Nat) (hP : P h) : P (h.run n c).session := by
  fun_induction Session.run h n c
  case case1 | case2 | case5 => exact hP
  case case3 hs _ _ _ ih => exact ih (hstep _ _ hP hs)
  case case4 hs _ _ _ _ => exact hstep _ _ hP hs

/-- R29: a step writes no parameter. -/
theorem step_cfg {s t : State} (hstep : step s = .next t) : t.cfg = s.cfg := by
  rcases step_cases s with ⟨_, _, -, he⟩ | ⟨i, -, -, he⟩ | ⟨-, -, -, he⟩ | ⟨-, -, -, he⟩
  · cases hstep.symm.trans he
    rfl
  · exact (exec_keepsRun (he.symm.trans hstep)).2
  · cases hstep.symm.trans he
    rfl
  · cases hstep.symm.trans he
    rfl

theorem sessionStep_cfg {h h' : Session} (hstep : h.step = .next h') : h'.core.cfg = h.core.cfg := by
  obtain ⟨h₁, hh₁, hcore, -⟩ := sessionStep_next h
  cases hstep.symm.trans hh₁
  exact step_cfg hcore

theorem load_cfg {h h' : Session} {base : Addr} {bytes : List Byte} (hload : h.load base bytes = .next h') :
    h'.core.cfg = h.core.cfg := by
  unfold Session.load at hload
  split at hload <;> cases hload
  rfl

/-- Settles O51, by the operations of the host; `run` keeps what every step keeps. -/
theorem configurationIsFixed : Obligations.ConfigurationIsFixed := by
  constructor
  · exact fun i s t hexec => (exec_keepsRun hexec).2
  · intro h h' op hop
    cases op with
    | reset entry =>
      cases hop
      rfl
    | load base bytes => exact load_cfg hop
    | step => exact sessionStep_cfg hop
    | run budget cancelAfter =>
      cases hop
      exact sessionRun_keeps (P := fun k => k.core.cfg = h.core.cfg)
        (fun _ _ hP hstep => (sessionStep_cfg hstep).trans hP) h budget cancelAfter rfl

end Sys2Proof.Machine
end

section
/-! A step seen from the state it reaches: one of four (R78, R190, R201). -/

namespace Sys2Proof.Machine

/-- What holds of each state that a step from `s` can reach holds of the one it reaches. -/
theorem step_reaches {P : State → Prop} {s t : State} (hstep : step s = .next t) (hstopped : P s)
    (hexec : ∀ i, s.status = .running → variantOf s.fetch = .instr i → exec i s = .next t → P t)
    (hraise : P (s.raiseIllegalInstruction s.fetch)) (hadvance : P s.advance) : P t := by
  rcases step_cases s with ⟨_, _, -, he⟩ | ⟨i, hrun, hvar, he⟩ | ⟨-, -, -, he⟩ | ⟨-, -, -, he⟩
  · cases hstep.symm.trans he
    exact hstopped
  · exact hexec i hrun hvar (he.symm.trans hstep)
  · cases hstep.symm.trans he
    exact hraise
  · cases hstep.symm.trans he
    exact hadvance

end Sys2Proof.Machine
end

section
/-! Alignment of code (20_memory.md R49): a decoded offset is even, so every next PC of a step from an even PC is. -/

namespace Sys2Proof

section
variable {w : Word} {i : Instr}

/-- Only branch and jump offsets can be ill-formed (R65, R67). -/
theorem wf_of_not_transfers (hi : i.transfers = false) : i.wf = true := by
  cases i with
  | beq | bne | blt | bge | bltu | bgeu | jal | jalr => cases hi
  | _ => rfl

theorem decodeBranch_wf (h : decodeBranch w = .instr i) : i.wf = true := by
  have heven : (!(bField w).getLsbD 0) = true := by rw [bField_even, Bool.not_false]
  unfold decodeBranch at h
  split at h <;> cases h <;> exact heven

theorem decodeJalr_wf (h : decodeJalr w = .instr i) : i.wf = true := by
  unfold decodeJalr at h
  split at h <;> cases h
  rfl

/-- R65, R67: what a word decodes to is well-formed. -/
theorem variantOf_wf (h : variantOf w = .instr i) : i.wf = true := by
  rcases variantOf_instr_cases w h with ⟨-, hd⟩ | ⟨-, hd⟩ | ⟨-, hd⟩ | ⟨-, hd⟩ | ⟨-, hd⟩ | ⟨-, hd⟩ |
    ⟨-, rfl⟩ | ⟨-, rfl⟩ | ⟨-, rfl⟩
  · exact wf_of_not_transfers (decodeOp_shape hd).2
  · exact wf_of_not_transfers (decodeOpImm_shape hd).2
  · exact wf_of_not_transfers (decodeLoad_shape hd).2
  · exact wf_of_not_transfers (decodeStore_shape hd).2
  · exact decodeBranch_wf hd
  · exact decodeJalr_wf hd
  · rw [Instr.wf, jField_even, Bool.not_false]
  · rfl
  · rfl

end

end Sys2Proof

namespace Sys2Proof.Machine

/-! ### Even numbers in machine arithmetic (R10, R69) -/

/-- A bit vector is even when its low bit is 0. -/
theorem toNat_even_iff {n : Nat} (v : BitVec n) : v.toNat % 2 = 0 ↔ v.getLsbD 0 = false := by
  simp [BitVec.getLsbD, Nat.testBit_zero]

/-- The check of `Instr.wf` on an offset. -/
theorem even_of_not_low_bit {n : Nat} {v : BitVec n} (h : (!v.getLsbD 0) = true) : v.toNat % 2 = 0 := by
  rw [toNat_even_iff]
  simpa using h

theorem add_even {a b : BitVec 64} (ha : a.toNat % 2 = 0) (hb : b.toNat % 2 = 0) : (a + b).toNat % 2 = 0 := by
  rw [BitVec.toNat_add]
  omega

/-- Sign extension keeps the low bit. -/
theorem signExtend_even {m n : Nat} (hn : 0 < n) {v : BitVec n} (hv : v.toNat % 2 = 0) :
    (v.signExtend m).toNat % 2 = 0 := by
  rw [toNat_even_iff] at hv ⊢
  rw [BitVec.getLsbD_signExtend, if_pos hn, hv, Bool.and_false]

theorem setWidth_even {m n : Nat} {v : BitVec n} (hv : v.toNat % 2 = 0) : (v.setWidth m).toNat % 2 = 0 := by
  rw [toNat_even_iff] at hv ⊢
  rw [BitVec.getLsbD_setWidth, hv, Bool.and_false]

theorem immB_even {f : BitVec 13} (hf : f.toNat % 2 = 0) : (immB f).toNat % 2 = 0 :=
  signExtend_even (by decide) (signExtend_even (by decide) hf)

/-- Under either setting of `P_JAL_SEXT`. -/
theorem immJ_even (cfg : Config) {f : BitVec 21} (hf : f.toNat % 2 = 0) : (immJ cfg f).toNat % 2 = 0 := by
  apply signExtend_even (by decide)
  rw [jContainer]
  split
  · exact signExtend_even (by decide) hf
  · exact setWidth_even hf

/-- R172: JALR clears the low bit of its target. -/
theorem jalrTarget_even (s : State) (rs1 : Reg) (imm : BitVec 12) : (s.jalrTarget rs1 imm).toNat % 2 = 0 := by
  rw [State.jalrTarget, clear_low_bit, BitVec.toNat_ofNat]
  omega

/-! ### The next PC -/

section
variable {s t : State} (heven : s.pc.toNat % 2 = 0)
include heven

theorem advance_pc_even : s.advance.pc.toNat % 2 = 0 := add_even heven rfl

/-- An even target, also where a transfer to itself falls through (R78). -/
theorem transfer_pc_even {target : Addr} (htarget : target.toNat % 2 = 0) :
    (s.transfer target).pc.toNat % 2 = 0 := by
  rw [transfer_pc]
  split
  · exact advance_pc_even heven
  · exact htarget

theorem setX_transfer_pc_even (rd : Reg) (v : RegVal) {target : Addr} (htarget : target.toNat % 2 = 0) :
    ((s.setX rd v).transfer target).pc.toNat % 2 = 0 :=
  transfer_pc_even ((setX_pc s rd v).symm ▸ heven) htarget

theorem branchStep_pc_even {taken : Bool} {off : BitVec 13} (hoff : off.toNat % 2 = 0)
    (he : branchStep taken off s = .next t) : t.pc.toNat % 2 = 0 := by
  cases he
  cases taken
  · exact advance_pc_even heven
  · exact transfer_pc_even heven (add_even heven (immB_even hoff))

theorem exec_pc_even {i : Instr} (hwf : i.wf = true) (he : exec i s = .next t) : t.pc.toNat % 2 = 0 := by
  cases htr : i.transfers with
  | false =>
    rw [exec_pc_of_not_transfers he htr]
    exact advance_pc_even heven
  | true =>
    cases i with
    | beq | bne | blt | bge | bltu | bgeu =>
      exact branchStep_pc_even heven (even_of_not_low_bit hwf) he
    | jal rd off =>
      cases he
      exact setX_transfer_pc_even heven rd _ (add_even heven (immJ_even _ (even_of_not_low_bit hwf)))
    | jalr rd rs1 imm =>
      cases he
      exact setX_transfer_pc_even heven rd _ (jalrTarget_even _ rs1 imm)
    | _ => cases htr

end

/-- Settles O43: only an instruction moves `pc` elsewhere than on, and one that was decoded is well-formed. -/
theorem evenPcStaysEven : Obligations.EvenPcStaysEven := by
  intro s t heven hstep
  refine step_reaches (P := fun u => u.pc.toNat % 2 = 0) hstep ?stopped ?exec ?raise ?advance
  case stopped | raise => exact heven
  case exec => exact fun _ _ hvar he => exec_pc_even heven (variantOf_wf hvar) he
  case advance => exact advance_pc_even heven

end Sys2Proof.Machine
end

section
/-! The canonical memory and the slot behind `x0` (R33, R22; notes/assumptions/3.md and 4.md). -/

namespace Sys2Proof.Machine

theorem exec_keeps_inv {i : Instr} {s t : State} (hinv : s.Inv) (he : exec i s = .next t) : t.Inv := by
  obtain ⟨hmem, hslot⟩ := hinv
  obtain ⟨t', ht', -, -, hregs, hwf⟩ := exec_next i s
  cases he.symm.trans ht'
  exact ⟨hwf hmem, hregs.trans hslot⟩

/-- Settles O45: only an instruction writes registers or memory. -/
theorem stepKeepsTheInvariant : Obligations.StepKeepsTheInvariant := by
  intro s t hinv hstep
  refine step_reaches (P := State.Inv) hstep ?stopped ?exec ?raise ?advance
  case stopped | raise | advance => exact hinv
  case exec => exact fun _ _ _ he => exec_keeps_inv hinv he

end Sys2Proof.Machine
end

section
/-! The memory image and its multi-byte accesses as the numbers of 20_memory.md (R41 to R46, R58). -/

namespace Sys2Proof.Machine

/-- Settles O12, by induction on the sets, the last one first (R42). -/
theorem getReturnsTheLastByteSet : Obligations.GetReturnsTheLastByteSet := by
  refine ⟨fun writes a => ?_, get_set⟩
  induction writes using List.reverseRecOn with
  | nil => rfl
  | append_singleton writes w ih =>
    rw [List.foldl_append, List.foldl_cons, List.foldl_nil, get_set, ih, List.reverse_append, List.reverse_singleton,
      List.singleton_append, List.find?_cons]
    by_cases h : a = w.1
    · simp [h]
    · have hw : (w.1 == a) = false := beq_false_of_ne (Ne.symm h)
      rw [if_neg h, hw]

/-- The bytes gathered so far lie below bit `8n` (R43). -/
theorem gatherBytes_lt (m : Memory) (addr : Addr) (n : Nat) (hn : n ≤ 8) :
    (gatherBytes m addr n).toNat < 2 ^ (8 * n) := by
  apply Nat.lt_pow_two_of_testBit
  intro k hk
  rw [BitVec.testBit_toNat, getLsbD_gatherBytes _ _ _ _ hn, decide_eq_false (by omega), Bool.false_and]

/-- R43: the loop adds byte `n` at weight `256^n`, where the bytes before it leave off. -/
theorem gatherBytes_succ_toNat (m : Memory) (addr : Addr) (n : Nat) (hn : n < 8) :
    (gatherBytes m addr (n + 1)).toNat =
      (gatherBytes m addr n).toNat + (m.get (addr + BitVec.ofNat 64 n)).toNat * 256 ^ n := by
  have hweight : 2 ^ (8 * n) = 256 ^ n := pow_mul 2 8 n
  rw [gatherBytes]
  generalize m.get (addr + BitVec.ofNat 64 n) = b
  have hwide : b.toNat % 2 ^ 64 = b.toNat := Nat.mod_eq_of_lt (by omega)
  have hfits : b.toNat <<< (8 * n) < 2 ^ 64 :=
    (Nat.shiftLeft_lt b.isLt).trans_le (Nat.pow_le_pow_right (by decide) (by omega))
  rw [BitVec.toNat_or, BitVec.toNat_shiftLeft, BitVec.toNat_setWidth, hwide, Nat.mod_eq_of_lt hfits, Nat.or_comm,
    ← Nat.shiftLeft_add_eq_or_of_lt (gatherBytes_lt m addr n hn.le), Nat.shiftLeft_eq, hweight, Nat.add_comm]

theorem gatherBytes_toNat (m : Memory) (addr : Addr) (n : Nat) (hn : n ≤ 8) :
    (gatherBytes m addr n).toNat =
      ∑ i ∈ Finset.range n, (m.get (addr + BitVec.ofNat 64 i)).toNat * 256 ^ i := by
  induction n with
  | zero => rfl
  | succ n ih => rw [gatherBytes_succ_toNat m addr n (by omega), ih (by omega), Finset.sum_range_succ]

/-- Settles O13: no bit of the gathered bytes is lost. -/
theorem memReadIsLittleEndian : Obligations.MemReadIsLittleEndian := by
  intro m addr n hn
  have hn8 : n ≤ 8 := by omega
  simp only [ofNat_toNat_add]
  rw [memRead, BitVec.toNat_setWidth, Nat.mod_eq_of_lt (gatherBytes_lt m addr n hn8), gatherBytes_toNat m addr n hn8]

/-- Settles O14: the offset of an address from `addr` decides whether it is written, and with which byte. -/
theorem memWriteSpreadsTheBytes : Obligations.MemWriteSpreadsTheBytes := by
  intro m addr v n hn
  have hn64 : n ≤ 2 ^ 64 := by omega
  simp only [ofNat_toNat_add]
  refine ⟨fun i hi => ?written, fun b hb => ?kept⟩
  case written =>
    have hoffset : (addr + BitVec.ofNat 64 i - addr).toNat = i := (offset_toNat _ _ i (by omega)).1 rfl
    rw [get_memWrite _ _ _ _ _ hn64, hoffset, if_pos hi, byteOf_toNat]
  case kept =>
    have hoffset : ¬ (b - addr).toNat < n := fun h => hb _ h ((offset_toNat _ _ _ (by omega)).2 rfl)
    rw [get_memWrite _ _ _ _ _ hn64, if_neg hoffset]

/-- Settles O17: SW ends at `pc + 4`, and the fetch there reads back what it wrote (R47, R58). -/
theorem storeIntoTheNextInstructionIsFetched : Obligations.StoreIntoTheNextInstructionIsFetched := by
  intro s rs2 rs1 imm haddr
  refine ⟨_, rfl, rfl, ?_⟩
  rw [State.fetch, advance_mem, setMem_mem, advance_pc, setMem_pc, haddr, memRead_memWrite _ _ _ _ (by decide),
    BitVec.toNat_setWidth]

end Sys2Proof.Machine
end

section
/-! Which words can change memory (20_memory.md R52, 43_stores.md R150). -/

namespace Sys2Proof

/-- The three store words (R73, R192). -/
theorem decodeStore_funct3 {w : Word} {i : Instr} (h : decodeStore w = .instr i) : (funct3 w).toNat < 3 := by
  unfold decodeStore at h
  split at h
  · next hf => rw [hf]; decide
  · next hf => rw [hf]; decide
  · next hf => rw [hf]; decide
  · cases h

theorem decodeBranch_transfers {w : Word} {i : Instr} (h : decodeBranch w = .instr i) : i.transfers = true := by
  unfold decodeBranch at h
  split at h <;> cases h <;> rfl

/-- A word whose instruction names no destination and transfers no control is a store (R62, R73). -/
theorem store_word_of_variantOf {w : Word} {i : Instr} (h : variantOf w = .instr i) (hdest : i.dest = none)
    (htr : i.transfers = false) : opcode w = 0b0100011#7 ∧ (funct3 w).toNat < 3 := by
  rw [variantOf_dest h] at hdest
  split at hdest
  · next ho =>
    rcases ho with ho | ho
    · exact ⟨ho, decodeStore_funct3 ((variantOf_store w ho).symm.trans h)⟩
    · cases htr.symm.trans (decodeBranch_transfers ((variantOf_branch w ho).symm.trans h))
  · cases hdest

end Sys2Proof

namespace Sys2Proof.Machine

/-- R52: an instruction that changes memory names no destination and transfers no control. -/
theorem store_of_exec_mem_ne {i : Instr} {s t : State} (he : exec i s = .next t) (hmem : t.mem ≠ s.mem) :
    i.dest = none ∧ i.transfers = false := by
  rcases exec_shape_of_dest i s with ⟨rd, v, -, -, h⟩ | ⟨rd, v, target, -, -, h⟩ | ⟨taken, off, -, -, h⟩ |
    ⟨_, hdest, htr, -⟩
  · cases he.symm.trans h
    exact absurd (setX_mem s rd v) hmem
  · cases he.symm.trans h
    exact absurd (setX_mem s rd v) hmem
  · cases he.symm.trans h
    cases taken <;> exact absurd rfl hmem
  · exact ⟨hdest, htr⟩

/-- Settles O41: only an instruction changes memory, and its word is a store's. -/
theorem onlyStoresChangeMemory : Obligations.OnlyStoresChangeMemory := by
  intro s t a hstep hbyte
  have hmem : t.mem ≠ s.mem := fun h => hbyte (congrArg (Memory.get · a) h)
  refine step_reaches (P := fun u => u.mem ≠ s.mem →
    s.status = .running ∧ opcode s.fetch = 0b0100011#7 ∧ (funct3 s.fetch).toNat < 3)
    hstep ?stopped ?exec ?raise ?advance hmem
  case stopped | raise | advance => exact absurd rfl
  case exec =>
    intro i hrun hvar he hne
    obtain ⟨hdest, htr⟩ := store_of_exec_mem_ne he hne
    exact ⟨hrun, store_word_of_variantOf hvar hdest htr⟩

end Sys2Proof.Machine
end

section
/-! Encoding and decoding are inverse to each other (30_encoding.md R62, R73). -/

namespace Sys2Proof

/-! ### A word put together from what its dispatch examined and its own operand fields -/

section
variable {w : Word} {f7 : BitVec 7} {f3 : BitVec 3} {opc : BitVec 7}

theorem packR_eq_word (ho : opcode w = opc) (h3 : funct3 w = f3) (h7 : funct7 w = f7) :
    packR f7 (shamtField w) (rs1Field w) f3 (rdField w) opc = w := by
  rw [← ho, ← h3, ← h7, packR_fields]

theorem packI_eq_word (ho : opcode w = opc) (h3 : funct3 w = f3) :
    packI (iField w) (rs1Field w) f3 (rdField w) opc = w := by
  rw [← ho, ← h3, packI_fields]

theorem packS_eq_word (ho : opcode w = opc) (h3 : funct3 w = f3) :
    packS (sField w) (rs2Field w) (rs1Field w) f3 opc = w := by
  rw [← ho, ← h3, packS_fields]

theorem packB_eq_word (ho : opcode w = opc) (h3 : funct3 w = f3) :
    packB (bField w) (rs2Field w) (rs1Field w) f3 opc = w := by
  rw [← ho, ← h3, packB_fields]

theorem packU_eq_word (ho : opcode w = opc) : packU (uField w) (rdField w) opc = w := by
  rw [← ho, packU_fields]

theorem packJ_eq_word (ho : opcode w = opc) : packJ (jField w) (rdField w) opc = w := by
  rw [← ho, packJ_fields]

end

/-! ### Encoding what an opcode's dispatch answers -/

section
variable {w : Word} {i : Instr}

theorem encode_of_decodeOp (ho : opcode w = opcOp) (h : decodeOp w = .instr i) : encode i = w := by
  unfold decodeOp at h
  split at h
  case h_11 => cases h
  all_goals
    next h3 h7 =>
      cases h
      exact packR_eq_word ho h3 h7

theorem encode_of_decodeOpImm (ho : opcode w = opcOpImm) (h : decodeOpImm w = .instr i) : encode i = w := by
  unfold decodeOpImm at h
  split at h
  case h_2 h3 | h_6 h3 =>
    split at h <;> cases h <;> next h7 => exact packR_eq_word ho h3 h7
  case h_9 => cases h
  all_goals
    next h3 =>
      cases h
      exact packI_eq_word ho h3

theorem encode_of_decodeLoad (ho : opcode w = opcLoad) (h : decodeLoad w = .instr i) : encode i = w := by
  unfold decodeLoad at h
  split at h <;> cases h <;> next h3 => exact packI_eq_word ho h3

theorem encode_of_decodeStore (ho : opcode w = opcStore) (h : decodeStore w = .instr i) : encode i = w := by
  unfold decodeStore at h
  split at h <;> cases h <;> next h3 => exact packS_eq_word ho h3

theorem encode_of_decodeBranch (ho : opcode w = opcBranch) (h : decodeBranch w = .instr i) : encode i = w := by
  unfold decodeBranch at h
  split at h <;> cases h <;> next h3 => exact packB_eq_word ho h3

theorem encode_of_decodeJalr (ho : opcode w = opcJalr) (h : decodeJalr w = .instr i) : encode i = w := by
  unfold decodeJalr at h
  split at h <;> cases h
  next h3 => exact packI_eq_word ho h3

/-- R62, R75: every bit of a decoded word is in a field that the dispatch examined or an operand holds. -/
theorem encode_of_variantOf (h : variantOf w = .instr i) : encode i = w := by
  rcases variantOf_instr_cases w h with ⟨ho, hd⟩ | ⟨ho, hd⟩ | ⟨ho, hd⟩ | ⟨ho, hd⟩ | ⟨ho, hd⟩ | ⟨ho, hd⟩ |
    ⟨ho, rfl⟩ | ⟨ho, rfl⟩ | ⟨ho, rfl⟩
  · exact encode_of_decodeOp ho hd
  · exact encode_of_decodeOpImm ho hd
  · exact encode_of_decodeLoad ho hd
  · exact encode_of_decodeStore ho hd
  · exact encode_of_decodeBranch ho hd
  · exact encode_of_decodeJalr ho hd
  · exact packJ_eq_word ho
  · exact packU_eq_word ho
  · exact packU_eq_word ho

end

/-! ### The round trip in both directions -/

/-- Settles O6, format by format: the opcode of the packed word selects the dispatch, and each field reads what was
packed; only B and J lose a bit, the low bit of the offset, which is 0 in a well-formed instruction. -/
theorem decodeOfEncodeIsTheInstruction : Obligations.DecodeOfEncodeIsTheInstruction := by
  intro i hwf
  cases i with
  | add | sub | sll | slt | sltu | xor | srl | sra | or | and =>
    exact (variantOf_op _ (opcode_packR ..)).trans (by simp [decodeOp])
  | slli | srli | srai =>
    exact (variantOf_opImm _ (opcode_packR ..)).trans (by simp [decodeOpImm])
  | addi | slti | sltiu | xori | ori | andi =>
    exact (variantOf_opImm _ (opcode_packI ..)).trans (by simp [decodeOpImm])
  | lb | lh | lw | lbu | lhu =>
    exact (variantOf_load _ (opcode_packI ..)).trans (by simp [decodeLoad])
  | sb | sh | sw =>
    exact (variantOf_store _ (opcode_packS ..)).trans (by simp [decodeStore])
  | beq rs1 rs2 off | bne rs1 rs2 off | blt rs1 rs2 off | bge rs1 rs2 off | bltu rs1 rs2 off | bgeu rs1 rs2 off =>
    have heven : off.getLsbD 0 = false := (Bool.not_eq_true' _).mp hwf
    exact (variantOf_branch _ (opcode_packB ..)).trans (by simp [decodeBranch, bField_packB _ _ _ _ _ heven])
  | jal rd off =>
    have heven : off.getLsbD 0 = false := (Bool.not_eq_true' _).mp hwf
    exact (variantOf_jal _ (opcode_packJ ..)).trans (by simp [jField_packJ _ _ _ heven])
  | jalr => exact (variantOf_jalr _ (opcode_packI ..)).trans (by simp [decodeJalr])
  | lui => exact (variantOf_lui _ (opcode_packU ..)).trans (by simp)
  | auipc => exact (variantOf_auipc _ (opcode_packU ..)).trans (by simp)

/-- Settles O7: what a word decodes to is well-formed, and its format puts the word's own fields together again. -/
theorem encodeOfDecodeIsTheWord : Obligations.EncodeOfDecodeIsTheWord :=
  fun _ _ h => ⟨variantOf_wf h, encode_of_variantOf h⟩

end Sys2Proof
end

section
/-! The opcode table (30_encoding.md R73): what a word decodes to is the row whose match it has under the row's mask. -/

namespace Sys2Proof

/-- The word of every instruction has its row's match under its row's mask. -/
theorem encode_rowMatch (i : Instr) : Laws.RowMatch.Statement i := by
  cases i with
  | add => exact Laws.RowMatch.add ..
  | sub => exact Laws.RowMatch.sub ..
  | sll => exact Laws.RowMatch.sll ..
  | slt => exact Laws.RowMatch.slt ..
  | sltu => exact Laws.RowMatch.sltu ..
  | xor => exact Laws.RowMatch.xor ..
  | srl => exact Laws.RowMatch.srl ..
  | sra => exact Laws.RowMatch.sra ..
  | or => exact Laws.RowMatch.or ..
  | and => exact Laws.RowMatch.and ..
  | addi => exact Laws.RowMatch.addi ..
  | slli => exact Laws.RowMatch.slli ..
  | slti => exact Laws.RowMatch.slti ..
  | sltiu => exact Laws.RowMatch.sltiu ..
  | xori => exact Laws.RowMatch.xori ..
  | srli => exact Laws.RowMatch.srli ..
  | srai => exact Laws.RowMatch.srai ..
  | ori => exact Laws.RowMatch.ori ..
  | andi => exact Laws.RowMatch.andi ..
  | lb => exact Laws.RowMatch.lb ..
  | lh => exact Laws.RowMatch.lh ..
  | lw => exact Laws.RowMatch.lw ..
  | lbu => exact Laws.RowMatch.lbu ..
  | lhu => exact Laws.RowMatch.lhu ..
  | sb => exact Laws.RowMatch.sb ..
  | sh => exact Laws.RowMatch.sh ..
  | sw => exact Laws.RowMatch.sw ..
  | beq => exact Laws.RowMatch.beq ..
  | bne => exact Laws.RowMatch.bne ..
  | blt => exact Laws.RowMatch.blt ..
  | bge => exact Laws.RowMatch.bge ..
  | bltu => exact Laws.RowMatch.bltu ..
  | bgeu => exact Laws.RowMatch.bgeu ..
  | jal => exact Laws.RowMatch.jal ..
  | jalr => exact Laws.RowMatch.jalr ..
  | lui => exact Laws.RowMatch.lui ..
  | auipc => exact Laws.RowMatch.auipc ..

/-- A word that has a row's match under its mask decodes to an instruction of the row: the mask covers every field the
dispatch examines on the way to it. -/
theorem variantOf_of_rowMatch {w : Word} {m : Mnemonic} (h : w &&& m.rowMask = m.rowMatch) :
    ∃ i, variantOf w = .instr i ∧ i.mnemonic = m := by
  obtain ⟨ho, h3, h7⟩ := fields_of_row_match h
  cases m with
  | ADD | SUB | SLL | SLT | SLTU | XOR | SRL | SRA | OR | AND =>
    exact ⟨_, (variantOf_op w ho).trans (by rw [decodeOp, h3 rfl, h7 rfl]; rfl), rfl⟩
  | SLLI | SRLI | SRAI =>
    exact ⟨_, (variantOf_opImm w ho).trans (by rw [decodeOpImm, h3 rfl, h7 rfl]; rfl), rfl⟩
  | ADDI | SLTI | SLTIU | XORI | ORI | ANDI =>
    exact ⟨_, (variantOf_opImm w ho).trans (by rw [decodeOpImm, h3 rfl]; rfl), rfl⟩
  | LB | LH | LW | LBU | LHU => exact ⟨_, (variantOf_load w ho).trans (by rw [decodeLoad, h3 rfl]; rfl), rfl⟩
  | SB | SH | SW => exact ⟨_, (variantOf_store w ho).trans (by rw [decodeStore, h3 rfl]; rfl), rfl⟩
  | BEQ | BNE | BLT | BGE | BLTU | BGEU =>
    exact ⟨_, (variantOf_branch w ho).trans (by rw [decodeBranch, h3 rfl]; rfl), rfl⟩
  | JALR => exact ⟨_, (variantOf_jalr w ho).trans (by rw [decodeJalr, h3 rfl]; rfl), rfl⟩
  | JAL => exact ⟨_, variantOf_jal w ho, rfl⟩
  | LUI => exact ⟨_, variantOf_lui w ho, rfl⟩
  | AUIPC => exact ⟨_, variantOf_auipc w ho, rfl⟩

theorem rowMatch_of_variantOf {w : Word} {i : Instr} (h : variantOf w = .instr i) :
    w &&& i.mnemonic.rowMask = i.mnemonic.rowMatch := by
  have hrow : encode i &&& i.mnemonic.rowMask = i.mnemonic.rowMatch := encode_rowMatch i
  rwa [encode_of_variantOf h] at hrow

/-- Settles O5: a decoded word is the word of its instruction, which lies in its row, and the fields a row fixes decide
the dispatch. -/
theorem dispatchFollowsTheOpcodeTable : Obligations.DispatchFollowsTheOpcodeTable := by
  refine ⟨fun w m => ⟨?row, variantOf_of_rowMatch⟩, fun w => ⟨fun hun m hrow => ?unrecognized, fun hnone => ?none⟩⟩
  case row =>
    rintro ⟨i, hvar, rfl⟩
    exact rowMatch_of_variantOf hvar
  case unrecognized =>
    obtain ⟨i, hvar, -⟩ := variantOf_of_rowMatch hrow
    cases hun.symm.trans hvar
  case none =>
    cases hvar : variantOf w with
    | unrecognized => rfl
    | instr i => exact absurd (rowMatch_of_variantOf hvar) (hnone i.mnemonic)

end Sys2Proof
end

section
/-! The fields and the immediate of every word (30_encoding.md R61 to R69) as numbers. -/

namespace Sys2Proof.Machine

/-- Settles O1: a field of `n` bits from bit `lo` is read as the number word[lo+n-1:lo]. -/
theorem fieldsAreCutFromEveryWord : Obligations.FieldsAreCutFromEveryWord := fun _ w =>
  ⟨extractLsb'_toNat w 0 7, extractLsb'_toNat w 7 5, extractLsb'_toNat w 12 3, extractLsb'_toNat w 15 5,
    extractLsb'_toNat w 20 5, extractLsb'_toNat w 25 7⟩

/-! ### The immediate that each class of opcodes selects (R72) -/

section
variable (c : Bool) {w : Word}

theorem immediate_of_classI (h : immClass (opcode w) = .i) : (decode c w).imm = iContainer (iField w) := by
  rw [decode, immediate, h]

theorem immediate_of_classS (h : immClass (opcode w) = .s) : (decode c w).imm = sContainer (sField w) := by
  rw [decode, immediate, h]

theorem immediate_of_classB (h : immClass (opcode w) = .b) : (decode c w).imm = bContainer (bField w) := by
  rw [decode, immediate, h]

theorem immediate_of_classU (h : immClass (opcode w) = .u) : (decode c w).imm = uContainer (uField w) := by
  rw [decode, immediate, h]

theorem immediate_of_classJ (h : immClass (opcode w) = .j) : (decode c w).imm = jContainer c (jField w) := by
  rw [decode, immediate, h]

theorem immediate_of_noClass (h : immClass (opcode w) = .none) : (decode c w).imm = 0 := by
  rw [decode, immediate, h]

end

/-- The opcodes outside the nine of R72's class column have no class (R68). -/
theorem immClass_none {opc : BitVec 7} (h1 : opc ≠ 0b0010011#7) (h2 : opc ≠ 0b0000011#7) (h3 : opc ≠ 0b1100111#7)
    (h4 : opc ≠ 0b1110011#7) (h5 : opc ≠ 0b0100011#7) (h6 : opc ≠ 0b1100011#7) (h7 : opc ≠ 0b0110111#7)
    (h8 : opc ≠ 0b0010111#7) (h9 : opc ≠ 0b1101111#7) : immClass opc = .none := by
  unfold immClass
  split
  case h_10 => rfl
  all_goals contradiction

/-! ### The containers as signed numbers (R10, R11) -/

/-- An `n`-bit value read as signed lies within its width. -/
theorem toInt_bounds {n : Nat} (f : BitVec (n + 1)) : -2 ^ n ≤ f.toInt ∧ f.toInt ≤ 2 ^ n - 1 :=
  ⟨BitVec.le_toInt f, Int.le_sub_one_of_lt BitVec.toInt_lt⟩

theorem iContainer_toInt (f : BitVec 12) : (iContainer f).toInt = f.toInt := BitVec.toInt_signExtend_of_le (by decide)

theorem sContainer_toInt (f : BitVec 12) : (sContainer f).toInt = f.toInt := BitVec.toInt_signExtend_of_le (by decide)

theorem bContainer_toInt (f : BitVec 13) : (bContainer f).toInt = f.toInt := BitVec.toInt_signExtend_of_le (by decide)

theorem uContainer_toNat (f : BitVec 20) : (uContainer f).toNat = f.toNat * 2 ^ 12 := by
  rw [uContainer, toNat_append_eq, BitVec.toNat_ofNat, Nat.zero_mod, Nat.add_zero]

/-- Without `P_JAL_SEXT` the 21 bits stand as they are (R67). -/
theorem jContainer_false_toNat (f : BitVec 21) : (jContainer false f).toNat = f.toNat := by
  rw [jContainer, if_neg Bool.false_ne_true, BitVec.toNat_setWidth_of_le (by decide)]

theorem jContainer_true_toInt (f : BitVec 21) : (jContainer true f).toInt = f.toInt :=
  BitVec.toInt_signExtend_of_le (by decide)

theorem jContainer_even (c : Bool) {f : BitVec 21} (hf : f.toNat % 2 = 0) : (jContainer c f).toNat % 2 = 0 := by
  cases c
  · exact setWidth_even hf
  · exact signExtend_even (by decide) hf

/-- R67: sign extension and zero extension agree on a value whose top bit is 0. -/
theorem jContainer_eq_of_lt {f : BitVec 21} (hf : f.toNat < 2 ^ 20) : jContainer true f = jContainer false f :=
  BitVec.signExtend_eq_setWidth_of_msb_false (BitVec.msb_eq_false_iff_two_mul_lt.2 (by omega))

/-- An even number of 13 bits is even when read as signed. -/
theorem signedOf_even {v : Nat} (hv : v % 2 = 0) : signedOf 13 v % 2 = 0 := by
  unfold signedOf
  split <;> omega

/-! ### The fields as signed numbers (R63 to R67) -/

section
variable (w : Word)

theorem iField_toInt : (iField w).toInt = signedOf 12 (bitsOf w 20 12) := by
  rw [toInt_eq_signedOf (by decide), iField, extractLsb'_toNat]

theorem sField_toInt : (sField w).toInt = signedOf 12 (bitsOf w 25 7 * 2 ^ 5 + bitsOf w 7 5) := by
  rw [toInt_eq_signedOf (by decide), sField_toNat]

theorem bField_toInt :
    (bField w).toInt =
      signedOf 13 (bitsOf w 31 1 * 2 ^ 12 + bitsOf w 7 1 * 2 ^ 11 + bitsOf w 25 6 * 2 ^ 5 + bitsOf w 8 4 * 2) := by
  rw [toInt_eq_signedOf (by decide), bField_toNat]

theorem bField_toInt_even : (bField w).toInt % 2 = 0 := by
  rw [toInt_eq_signedOf (by decide)]
  exact signedOf_even ((toNat_even_iff _).2 (bField_even w))

/-- A J-immediate whose top bit word[31] is 0 is below 2^20 (R67). -/
theorem jField_lt (h : bitsOf w 31 1 = 0) : (jField w).toNat < 2 ^ 20 := by
  have h12 := bitsOf_lt w 12 8
  have h20 := bitsOf_lt w 20 1
  have h21 := bitsOf_lt w 21 10
  rw [jField_toNat, h]
  omega

end

/-- Settles O2, class by class: the container reads as its field, and a field lies within its width. -/
theorem immediatesOfClassesISB : Obligations.ImmediatesOfClassesISB := by
  intro c w
  refine ⟨fun ho => ?classI, fun ho => ?classS, fun ho => ?classB⟩
  case classI =>
    have hclass : immClass (opcode w) = .i := by rcases ho with h | h | h | h <;> rw [h] <;> rfl
    rw [immediate_of_classI c hclass, iContainer_toInt]
    exact ⟨iField_toInt w, toInt_bounds (iField w)⟩
  case classS =>
    rw [immediate_of_classS c (by rw [ho]; rfl), sContainer_toInt]
    exact ⟨sField_toInt w, toInt_bounds (sField w)⟩
  case classB =>
    rw [immediate_of_classB c (by rw [ho]; rfl), bContainer_toInt]
    obtain ⟨hlo, hhi⟩ := toInt_bounds (bField w)
    have heven := bField_toInt_even w
    exact ⟨bField_toInt w, hlo, by omega, heven⟩

/-- Settles O3: a U container is its field in the high bits, and a J container is its field under either extension. -/
theorem immediatesOfClassesUJAndNone : Obligations.ImmediatesOfClassesUJAndNone := by
  intro c w
  refine ⟨fun ho => ?classU, fun ho j21 hj => ?classJ, fun h1 h2 h3 h4 h5 h6 h7 h8 h9 => ?noClass⟩
  case classU =>
    have hclass : immClass (opcode w) = .u := by rcases ho with h | h <;> rw [h] <;> rfl
    rw [immediate_of_classU c hclass, uContainer_toNat, uField, extractLsb'_toNat]
  case classJ =>
    have hclass : immClass (opcode w) = .j := by rw [ho]; rfl
    rw [← jField_toNat] at hj
    simp only [immediate_of_classJ _ hclass, hj]
    refine ⟨fun hc => ?asItStands, fun hc => ?signed, ?even, fun h31 => ?same⟩
    case asItStands => rw [hc, jContainer_false_toNat]
    case signed => rw [hc, jContainer_true_toInt, toInt_eq_signedOf (by decide)]
    case even => exact jContainer_even c ((toNat_even_iff _).2 (jField_even w))
    case same => exact jContainer_eq_of_lt (jField_lt w h31)
  case noClass => exact immediate_of_noClass c (immClass_none h1 h2 h3 h4 h5 h6 h7 h8 h9)

/-! ### The 64-bit operand of a decoded instruction (R69) -/

section
variable {cfg : Config} {w : Word} {i : Instr} {v : RegVal}

theorem operand64_of_decodeOp (h : decodeOp w = .instr i) : operand64 cfg i = none := by
  unfold decodeOp at h
  split at h <;> cases h <;> rfl

theorem operand64_of_decodeOpImm (h : decodeOpImm w = .instr i) (hv : operand64 cfg i = some v) :
    v = immI (iField w) := by
  unfold decodeOpImm at h
  split at h
  case h_2 | h_6 => split at h <;> cases h <;> cases hv
  all_goals cases h <;> cases hv <;> rfl

theorem operand64_of_decodeLoad (h : decodeLoad w = .instr i) : operand64 cfg i = some (immI (iField w)) := by
  unfold decodeLoad at h
  split at h <;> cases h <;> rfl

theorem operand64_of_decodeStore (h : decodeStore w = .instr i) : operand64 cfg i = some (immS (sField w)) := by
  unfold decodeStore at h
  split at h <;> cases h <;> rfl

theorem operand64_of_decodeBranch (h : decodeBranch w = .instr i) : operand64 cfg i = some (immB (bField w)) := by
  unfold decodeBranch at h
  split at h <;> cases h <;> rfl

theorem operand64_of_decodeJalr (h : decodeJalr w = .instr i) : operand64 cfg i = some (immI (iField w)) := by
  unfold decodeJalr at h
  split at h <;> cases h
  rfl

/-- The operand is the container of the decoder, of the class that the opcode selects, at 64 bits. -/
theorem operand64_eq_imm64 (h : variantOf w = .instr i) (hv : operand64 cfg i = some v) :
    v = imm64 (decode cfg.jalSext w).imm := by
  rcases variantOf_instr_cases w h with ⟨ho, hd⟩ | ⟨ho, hd⟩ | ⟨ho, hd⟩ | ⟨ho, hd⟩ | ⟨ho, hd⟩ | ⟨ho, hd⟩ |
    ⟨ho, rfl⟩ | ⟨ho, rfl⟩ | ⟨ho, rfl⟩
  · cases (operand64_of_decodeOp hd).symm.trans hv
  · rw [operand64_of_decodeOpImm hd hv, immediate_of_classI _ (by rw [ho]; rfl), immI]
  · cases (operand64_of_decodeLoad hd).symm.trans hv
    rw [immediate_of_classI _ (by rw [ho]; rfl), immI]
  · cases (operand64_of_decodeStore hd).symm.trans hv
    rw [immediate_of_classS _ (by rw [ho]; rfl), immS]
  · cases (operand64_of_decodeBranch hd).symm.trans hv
    rw [immediate_of_classB _ (by rw [ho]; rfl), immB]
  · cases (operand64_of_decodeJalr hd).symm.trans hv
    rw [immediate_of_classI _ (by rw [ho]; rfl), immI]
  · cases hv
    rw [immediate_of_classJ _ (by rw [ho]; rfl), immJ]
  · cases hv
    rw [immediate_of_classU _ (by rw [ho]; rfl), immU]
  · cases hv
    rw [immediate_of_classU _ (by rw [ho]; rfl), immU]

end

/-- Settles O4: widening the container to 64 bits keeps its signed reading. -/
theorem immediatesWidenAsSigned : Obligations.ImmediatesWidenAsSigned := by
  intro cfg w i v hvar hv
  rw [operand64_eq_imm64 hvar hv, imm64_toInt]

end Sys2Proof.Machine
end

section
/-! Fetching and running an instruction (30_encoding.md R60, R78), and a word placed where the step fetches
(notes/assumptions/6.md). -/

namespace Sys2Proof.Machine

/-- Settles O36: `step` dispatches on the run status and on what the fetched word decodes to, and adds nothing. -/
theorem stepRunsTheDecodedInstruction : Obligations.StepRunsTheDecodedInstruction := by
  intro s i hrun hvar
  simp only [step, hrun, decode, hvar]

/-- R60: the fetched word as a sum of the bytes at `pc`. -/
theorem fetch_toNat (s : State) :
    s.fetch.toNat = ∑ i ∈ Finset.range 4, (s.byte (BitVec.ofNat 64 ((s.pc.toNat + i) % 2 ^ 64))).toNat * 256 ^ i :=
  memReadIsLittleEndian s.mem s.pc 4 (.inr (.inr rfl))

theorem fetch_eq_zero {s : State} (h : ∀ i, i < 4 → s.byte (s.pc + BitVec.ofNat 64 i) = 0) : s.fetch = 0 := by
  apply BitVec.eq_of_toNat_eq
  rw [fetch_toNat]
  refine Finset.sum_eq_zero fun i hi => ?_
  rw [ofNat_toNat_add, h i (Finset.mem_range.1 hi)]
  exact Nat.zero_mul _

/-- Settles O15: `MemRead` of four bytes at `pc`, written out; the word 0 has opcode 0, which is in no row (R191). -/
theorem fetchIsLittleEndian : Obligations.FetchIsLittleEndian := by
  refine ⟨fun s => ?sum, fun s h => ⟨fetch_eq_zero h, ?unrecognized⟩⟩
  case sum =>
    have hpc : BitVec.ofNat 64 ((s.pc.toNat + 0) % 2 ^ 64) = s.pc := (ofNat_toNat_add s.pc 0).trans (BitVec.add_zero _)
    rw [fetch_toNat, Finset.sum_range_succ, Finset.sum_range_succ, Finset.sum_range_succ, Finset.sum_range_one, hpc,
      pow_zero, Nat.mul_one]
    rfl
  case unrecognized =>
    rw [fetch_eq_zero h]
    rfl

/-! ### A placed word -/

/-- A word laid out in memory order decodes as the word does (R46, R60). -/
theorem decodeTableWord_toNat (w : Word) : decodeTableWord 32 w.toNat = (variantOf w).instr? := by
  rw [decodeTableWord, Nat.mod_eq_of_lt w.isLt, BitVec.ofNat_toNat, BitVec.setWidth_eq]
  have hbytes := decodeBytes_layOut w []
  rw [List.append_nil] at hbytes
  rw [hbytes]

section
variable (s : State) (nbits n : Nat)

@[simp] theorem withFetchWord_x (r : Reg) : (s.withFetchWord nbits n).x r = s.x r := rfl
@[simp] theorem withFetchWord_pc : (s.withFetchWord nbits n).pc = s.pc := rfl
@[simp] theorem withFetchWord_cfg : (s.withFetchWord nbits n).cfg = s.cfg := rfl
@[simp] theorem withFetchWord_status : (s.withFetchWord nbits n).status = .running := rfl

/-- Placing a word writes the four bytes at `pc` only. -/
theorem withFetchWord_byte {a : Addr} (h : ∀ k, k < 4 → a ≠ s.pc + BitVec.ofNat 64 k) :
    (s.withFetchWord nbits n).byte a = s.byte a := by
  obtain ⟨-, hkept⟩ := memWriteSpreadsTheBytes s.mem s.pc (BitVec.ofNat 64 (n % 2 ^ nbits)) 4 (.inr (.inr rfl))
  simp only [ofNat_toNat_add] at hkept
  exact hkept a h

/-- The fetch reads back the placed word (R43, R47). -/
theorem withFetchWord_fetch (w : Word) : (s.withFetchWord 32 w.toNat).fetch = w := by
  refine (memRead_memWrite _ _ _ _ (by decide)).trans (BitVec.eq_of_toNat_eq ?_)
  rw [BitVec.toNat_setWidth, BitVec.toNat_ofNat]
  omega

end

/-- Settles O8: the fetch reads the placed word, which decodes to the instruction it encodes. -/
theorem placedWordRunsItsInstruction : Obligations.PlacedWordRunsItsInstruction := by
  intro i s hwf
  have hvar := decodeOfEncodeIsTheInstruction i hwf
  refine ⟨?table, ?step, withFetchWord_x s 32 _, withFetchWord_pc .., withFetchWord_cfg .., withFetchWord_status ..,
    fun _ => withFetchWord_byte s 32 _⟩
  case table => rw [decodeTableWord_toNat, hvar, Variant.instr?]
  case step =>
    refine stepRunsTheDecodedInstruction _ i (withFetchWord_status ..) ?_
    rw [withFetchWord_fetch, hvar]

end Sys2Proof.Machine
end

section
/-! The expansion of `li` (30_encoding.md R81): one ADDI, or LUI and ADDI of the two parts of the value. -/

namespace Sys2Proof.Machine

/-! ### The two parts of a value -/

/-- The low part is the value modulo 2^12, read as signed. -/
theorem immI_loPart_toInt (v : RegVal) : (immI (loPart v)).toInt = signedOf 12 (v.toNat % 2 ^ 12) := by
  rw [immI_toInt, toInt_eq_signedOf (by decide), loPart, BitVec.extractLsb'_toNat, Nat.shiftRight_zero]

/-- A value in -2048 .. 2047 is its low part. -/
theorem immI_loPart_of_fits {v : RegVal} (h : fitsImm12 v = true) : immI (loPart v) = v := by
  simp only [fitsImm12, Bool.and_eq_true, decide_eq_true_eq] at h
  obtain ⟨hlo, hhi⟩ := h
  apply BitVec.eq_of_toInt_eq
  have hv := v.isLt
  rw [immI_loPart_toInt]
  rw [toInt_eq_signedOf (by decide)] at hlo hhi ⊢
  simp only [signedOf] at *
  omega

/-- What the low part leaves of a value is a multiple of 4096. -/
theorem sub_loPart_toNat_mod (v : RegVal) : (v - immI (loPart v)).toNat % 2 ^ 12 = 0 := by
  have hlo := immI_loPart_toInt v
  have hlt := (immI (loPart v)).isLt
  rw [toInt_eq_signedOf (by decide)] at hlo
  simp only [signedOf] at hlo
  rw [BitVec.toNat_sub]
  omega

/-- Where R81 gives a LUI and ADDI pair, the upper immediate is what the low part leaves. -/
theorem immU_hiPart {v : RegVal} (h : hiLoFits v = true) : immU (hiPart v) = v - immI (loPart v) := by
  simp only [hiLoFits, Bool.and_eq_true, decide_eq_true_eq] at h
  have hmod := sub_loPart_toNat_mod v
  unfold hiPart
  generalize v - immI (loPart v) = u at h hmod ⊢
  obtain ⟨hlo, hhi⟩ := h
  have hu := u.isLt
  apply BitVec.eq_of_toInt_eq
  rw [immU_toInt, toInt_eq_signedOf (by decide : 0 < 20), BitVec.extractLsb'_toNat, Nat.shiftRight_eq_div_pow]
  rw [toInt_eq_signedOf (by decide)] at hlo hhi ⊢
  simp only [signedOf] at *
  omega

/-! ### The instructions of the expansion -/

theorem exec_addi (rd rs1 : Reg) (imm : BitVec 12) (s : State) :
    exec (.addi rd rs1 imm) s = .next (s.setX rd (s.x rs1 + immI imm)).advance := rfl

theorem exec_lui (rd : Reg) (imm20 : BitVec 20) (s : State) :
    exec (.lui rd imm20) s = .next (s.setX rd (immU imm20)).advance := rfl

theorem execAll_cons {i : Instr} {s t : State} (h : exec i s = .next t) (rest : List Instr) :
    execAll (i :: rest) s = execAll rest t := by
  rw [execAll, h]

/-- A second write of the same register leaves the value written last. -/
theorem writesRegister_trans {rd : Reg} {u v : RegVal} {s t t' : State} (h : WritesRegister rd u s t)
    (h' : WritesRegister rd v t t') : WritesRegister rd v s t' := by
  intro r
  rw [h' r, h r]
  split <;> rfl

/-- ADDI from `x0` of the low part writes a value that fits 12 bits. -/
theorem execAll_li_short {rd : Reg} {v : RegVal} (h : fitsImm12 v = true) (s : State) :
    execAll [.addi rd 0 (loPart v)] s = .next (s.setX rd v).advance := by
  rw [execAll_cons (exec_addi ..), execAll, x_zero, immI_loPart_of_fits h, zero_add]

/-- LUI and ADDI write the value in two steps, unless `rd` is `x0`, where ADDI's sum is discarded too. -/
theorem execAll_li_long {rd : Reg} {v : RegVal} (h : hiLoFits v = true) (s : State) :
    execAll [.lui rd (hiPart v), .addi rd rd (loPart v)] s =
      .next ((s.setX rd (v - immI (loPart v))).advance.setX rd v).advance := by
  rw [execAll_cons (exec_lui ..), execAll_cons (exec_addi ..), execAll, immU_hiPart h, advance_x, x_setX_self]
  split
  · next h0 => rw [h0, setX_zero, setX_zero, setX_zero]
  · rw [BitVec.sub_add_cancel]

/-- Settles O58: which of the two expansions `li` has is decided by `fitsImm12`, and each ends with `v` written. -/
theorem loadImmediateExpansion : Obligations.LoadImmediateExpansion := by
  intro rd v hfits
  by_cases hshort : fitsImm12 v = true
  case pos =>
    refine ⟨_, if_pos hshort, fun s => ⟨_, execAll_li_short hshort s, ?_, ?_, ?_, ?_⟩⟩
    · exact writesRegister_setX s rd v
    · rw [advance_pc, setX_pc]
      rfl
    · exact fun a => setX_byte s rd v a
    · exact keepsRun_setX s rd v
  case neg =>
    have hlong : hiLoFits v = true := hfits.resolve_left hshort
    refine ⟨_, (if_neg hshort).trans (if_pos hlong), fun s => ⟨_, execAll_li_long hlong s, ?_, ?_, ?_, ?_⟩⟩
    · exact writesRegister_trans (writesRegister_setX s rd _) (writesRegister_setX _ rd v)
    · rw [advance_pc, setX_pc, advance_pc, setX_pc, BitVec.add_assoc]
      rfl
    · intro a
      rw [advance_byte, setX_byte, advance_byte, setX_byte]
    · exact ⟨by rw [advance_status, setX_status, advance_status, setX_status],
        by rw [advance_cfg, setX_cfg, advance_cfg, setX_cfg]⟩

end Sys2Proof.Machine
end

section
/-! The register-register ALU (40_register_alu.md R100 to R110): which words select its instructions, and what each
writes, as a number. -/

namespace Sys2Proof

/-- The word of a well-formed instruction decodes to it (R62, R73). -/
theorem variantOf_of_encode {i : Instr} {w : Word} (hw : encode i = w) (hwf : i.wf = true) : variantOf w = .instr i :=
  hw ▸ decodeOfEncodeIsTheInstruction i hwf

end Sys2Proof

namespace Sys2Proof.Machine

/-- R61, R62: the fields a row fixes and the word's own register fields are all the bits of an R-format word, so the
row's encoding decides what the word decodes to. -/
theorem selectsR_of_encode {f3 : BitVec 3} {f7 : BitVec 7} {mk : Reg → Reg → Reg → Instr}
    (henc : ∀ rd rs1 rs2, encode (mk rd rs1 rs2) = packR f7 (regBits rs2) rs1 f3 rd opcOp)
    (hwf : ∀ rd rs1 rs2, (mk rd rs1 rs2).wf = true) : SelectsR f3 f7 mk := by
  intro w ho h3 h7
  exact variantOf_of_encode ((henc ..).trans (packR_eq_word ho h3 h7)) (hwf ..)

/-! ### The instructions of the family (R100) -/

section
variable {i : Instr} {s : State} {rd : Reg} {v : RegVal} (he : exec i s = aluStep rd v s)
include he

/-- The family's frame, with the result read as the claim writes it. -/
theorem computesInto_of_aluStep {result : RegVal} (hv : v = result) :
    ∃ t, exec i s = .next t ∧ ComputesInto rd result s t :=
  ⟨_, he, hv ▸ computesInto_setX_advance s rd v⟩

/-- The same, with the result fixed bit by bit. -/
theorem computesInto_bits_of_aluStep {bit : Nat → Bool} (hbit : ∀ k, v.getLsbD k = bit k) :
    ∃ t u, exec i s = .next t ∧ ComputesInto rd u s t ∧ ∀ k, k < 64 → u.getLsbD k = bit k :=
  ⟨_, v, he, computesInto_setX_advance s rd v, fun k _ => hbit k⟩

end

/-! ### The results as numbers (R10) -/

theorem sub_eq_ofInt (a b : RegVal) : a - b = BitVec.ofInt 64 (a.toInt - b.toInt) := by
  apply BitVec.eq_of_toInt_eq
  rw [BitVec.toInt_sub, BitVec.toInt_ofInt]

section
variable (a b : RegVal)

theorem sll_eq_ofNat : a <<< regShiftAmount b = BitVec.ofNat 64 (a.toNat * 2 ^ (b.toNat % 64)) := by
  rw [shiftLeft_eq_ofNat, regShiftAmount_eq]

theorem srl_eq_ofNat : a >>> regShiftAmount b = BitVec.ofNat 64 (a.toNat / 2 ^ (b.toNat % 64)) := by
  rw [ushiftRight_eq_ofNat, regShiftAmount_eq]

theorem sra_eq_ofInt : a.sshiftRight (regShiftAmount b) = BitVec.ofInt 64 (a.toInt / 2 ^ (b.toNat % 64)) := by
  rw [sshiftRight_eq_ofInt, regShiftAmount_eq]

theorem boolVal_ltSigned : boolVal (ltSigned a b) = if a.toInt < b.toInt then 1 else 0 := boolVal_decide _

theorem boolVal_ltUnsigned : boolVal (ltUnsigned a b) = if a.toNat < b.toNat then 1 else 0 := boolVal_decide _

end

/-! ### The claims -/

/-- Settles O19: both results are taken modulo 2^64 by the word type. -/
theorem addAndSubtract : Obligations.AddAndSubtract := by
  refine ⟨?addWord, ?subWord, fun rd rs1 rs2 s => ⟨?add, ?sub⟩⟩
  case addWord | subWord => exact selectsR_of_encode (fun _ _ _ => rfl) (fun _ _ _ => rfl)
  case add => exact computesInto_of_aluStep rfl (BitVec.add_def ..)
  case sub => exact computesInto_of_aluStep rfl (sub_eq_ofInt ..)

/-- Settles O20: the amount is the low six bits of x[rs2], and each shift is a product or a quotient by its power. -/
theorem registerShifts : Obligations.RegisterShifts := by
  refine ⟨?sllWord, ?srlWord, ?sraWord, fun rd rs1 rs2 s => ⟨?sll, ?srl, ?sra⟩⟩
  case sllWord | srlWord | sraWord => exact selectsR_of_encode (fun _ _ _ => rfl) (fun _ _ _ => rfl)
  case sll => exact computesInto_of_aluStep rfl (sll_eq_ofNat ..)
  case srl => exact computesInto_of_aluStep rfl (srl_eq_ofNat ..)
  case sra => exact computesInto_of_aluStep rfl (sra_eq_ofInt ..)

/-- Settles O21: `bool(c)` is 1 or 0 by the comparison of the two readings. -/
theorem registerComparisons : Obligations.RegisterComparisons := by
  refine ⟨?sltWord, ?sltuWord, fun rd rs1 rs2 s => ⟨?slt, ?sltu⟩⟩
  case sltWord | sltuWord => exact selectsR_of_encode (fun _ _ _ => rfl) (fun _ _ _ => rfl)
  case slt => exact computesInto_of_aluStep rfl (boolVal_ltSigned ..)
  case sltu => exact computesInto_of_aluStep rfl (boolVal_ltUnsigned ..)

/-- Settles O22: the word operations act on each bit. -/
theorem registerLogic : Obligations.RegisterLogic := by
  refine ⟨?xorWord, ?orWord, ?andWord, fun rd rs1 rs2 s => ⟨?xor, ?or, ?and⟩⟩
  case xorWord | orWord | andWord => exact selectsR_of_encode (fun _ _ _ => rfl) (fun _ _ _ => rfl)
  case xor => exact computesInto_bits_of_aluStep rfl fun _ => BitVec.getLsbD_xor
  case or => exact computesInto_bits_of_aluStep rfl fun _ => BitVec.getLsbD_or
  case and => exact computesInto_bits_of_aluStep rfl fun _ => BitVec.getLsbD_and

end Sys2Proof.Machine
end

section
/-! The register-immediate ALU (41_immediate_alu.md R120 to R129): which words select its instructions, and what each
writes, as a number. -/

namespace Sys2Proof.Machine

/-- R61, R62: an I-format row's opcode and funct3 and the word's own operand fields are all the bits of the word. -/
theorem selectsI_of_encode {opc : BitVec 7} {f3 : BitVec 3} {mk : Reg → Reg → BitVec 12 → Instr}
    (henc : ∀ rd rs1 imm, encode (mk rd rs1 imm) = packI imm rs1 f3 rd opc)
    (hwf : ∀ rd rs1 imm, (mk rd rs1 imm).wf = true) : SelectsI opc f3 mk := by
  intro w ho h3
  exact variantOf_of_encode ((henc ..).trans (packI_eq_word ho h3)) (hwf ..)

/-- R120: a shift-immediate's row fixes funct7 too, and its amount stands in the `rs2` place. -/
theorem selectsShift_of_encode {f3 : BitVec 3} {f7 : BitVec 7} {mk : Reg → Reg → BitVec 5 → Instr}
    (henc : ∀ rd rs1 shamt, encode (mk rd rs1 shamt) = packR f7 shamt rs1 f3 rd opcOpImm)
    (hwf : ∀ rd rs1 shamt, (mk rd rs1 shamt).wf = true) : SelectsShift f3 f7 mk := by
  intro w ho h3 h7
  exact variantOf_of_encode ((henc ..).trans (packR_eq_word ho h3 h7)) (hwf ..)

/-! ### The results as numbers (R10, R69) -/

section
variable (a : RegVal) (imm : BitVec 12)

theorem immI_toNat : ((immI imm).toNat : Int) = imm.toInt % 2 ^ 64 := by
  have hlt := (immI imm).isLt
  rw [← immI_toInt, BitVec.toInt_eq_toNat_cond]
  split <;> omega

theorem add_immI_eq_addOffset : a + immI imm = addOffset a imm.toInt := by
  rw [add_eq_addOffset, immI_toInt]

theorem boolVal_ltSigned_immI : boolVal (ltSigned a (immI imm)) = if a.toInt < imm.toInt then 1 else 0 := by
  rw [boolVal_ltSigned, immI_toInt]

/-- The unsigned comparison with the sign-extended immediate, as one of integers (R124, D2). -/
theorem boolVal_ltUnsigned_immI :
    boolVal (ltUnsigned a (immI imm)) = if (a.toNat : Int) < imm.toInt % 2 ^ 64 then 1 else 0 := by
  simp only [boolVal_ltUnsigned, ← immI_toNat, Int.ofNat_lt]

/-- An operation on each bit of `a` and of the immediate, whose bit 11 fills the bits above it. -/
theorem computesInto_immBits_of_aluStep {i : Instr} {s : State} {rd : Reg} {v : RegVal}
    (he : exec i s = aluStep rd v s) {op : Bool → Bool → Bool}
    (hbit : ∀ k, v.getLsbD k = op (a.getLsbD k) ((immI imm).getLsbD k)) :
    ∃ t u, exec i s = .next t ∧ ComputesInto rd u s t ∧
      ∀ k, k < 64 → u.getLsbD k = op (a.getLsbD k) (imm.getLsbD (min k 11)) := by
  obtain ⟨t, u, hexec, hcomp, hu⟩ := computesInto_bits_of_aluStep he hbit
  refine ⟨t, u, hexec, hcomp, fun k hk => ?_⟩
  rw [hu k hk, immI_getLsbD imm k hk]

end

/-! ### The claims -/

/-- Settles O23: the sign-extended immediate is added as its signed reading. -/
theorem addImmediate : Obligations.AddImmediate :=
  ⟨selectsI_of_encode (fun _ _ _ => rfl) (fun _ _ _ => rfl),
    fun _ _ _ _ => computesInto_of_aluStep rfl (add_immI_eq_addOffset ..)⟩

/-- Settles O24: each shift is a product or a quotient by the amount's power of two. -/
theorem immediateShifts : Obligations.ImmediateShifts := by
  refine ⟨?slliWord, ?srliWord, ?sraiWord, fun rd rs1 shamt s => ⟨?slli, ?srli, ?srai⟩⟩
  case slliWord | srliWord | sraiWord => exact selectsShift_of_encode (fun _ _ _ => rfl) (fun _ _ _ => rfl)
  case slli => exact computesInto_of_aluStep rfl (shiftLeft_eq_ofNat ..)
  case srli => exact computesInto_of_aluStep rfl (ushiftRight_eq_ofNat ..)
  case srai => exact computesInto_of_aluStep rfl (sshiftRight_eq_ofInt ..)

/-- Settles O25: the immediate at 64 bits is compared by its signed reading, or by that reading modulo 2^64. -/
theorem immediateComparisons : Obligations.ImmediateComparisons := by
  refine ⟨?sltiWord, ?sltiuWord, fun rd rs1 imm s => ⟨?slti, ?sltiu⟩⟩
  case sltiWord | sltiuWord => exact selectsI_of_encode (fun _ _ _ => rfl) (fun _ _ _ => rfl)
  case slti => exact computesInto_of_aluStep rfl (boolVal_ltSigned_immI ..)
  case sltiu => exact computesInto_of_aluStep rfl (boolVal_ltUnsigned_immI ..)

/-- Settles O26: the word operations act on each bit of `x[rs1]` and of the immediate at 64 bits. -/
theorem immediateLogic : Obligations.ImmediateLogic := by
  refine ⟨?xoriWord, ?oriWord, ?andiWord, fun rd rs1 imm s => ⟨?xori, ?ori, ?andi⟩⟩
  case xoriWord | oriWord | andiWord => exact selectsI_of_encode (fun _ _ _ => rfl) (fun _ _ _ => rfl)
  case xori => exact computesInto_immBits_of_aluStep _ imm rfl fun _ => BitVec.getLsbD_xor
  case ori => exact computesInto_immBits_of_aluStep _ imm rfl fun _ => BitVec.getLsbD_or
  case andi => exact computesInto_immBits_of_aluStep _ imm rfl fun _ => BitVec.getLsbD_and

end Sys2Proof.Machine
end

section
/-! The loads (42_loads.md R140 to R145): the bytes at the address as one number, and its two extensions to 64 bits. -/

namespace Sys2Proof.Machine

/-! ### What is read (R43, R140) -/

section
variable {s : State} {rs1 : Reg} {imm : BitVec 12} {b : Nat → Nat} {n value : Nat}
  (hb : ∀ k, b k = (s.byte (addOffset (s.x rs1) imm.toInt + BitVec.ofNat 64 k)).toNat)
  (hn : n = 1 ∨ n = 2 ∨ n = 4) (hsum : ∑ k ∈ Finset.range n, b k * 256 ^ k = value)
include hb hn hsum

/-- A load reads the number whose digits to base 256 are the bytes at its address. -/
theorem memRead_loadAddress_toNat : (memRead s.mem (s.loadAddress rs1 imm) n).toNat = value := by
  rw [memReadIsLittleEndian _ _ _ hn, ← hsum]
  refine Finset.sum_congr rfl fun k _ => ?_
  rw [ofNat_toNat_add, loadAddress_eq, hb k]
  rfl

/-- D19: sign extension of the loaded bytes keeps their signed reading. -/
theorem signExtend_memRead_loadAddress :
    (memRead s.mem (s.loadAddress rs1 imm) n).signExtend 64 = BitVec.ofInt 64 (signedOf (8 * n) value) := by
  rw [signExtend_eq_ofInt (by omega), memRead_loadAddress_toNat hb hn hsum]

/-- D19: zero extension of the loaded bytes keeps their unsigned reading. -/
theorem setWidth_memRead_loadAddress :
    (memRead s.mem (s.loadAddress rs1 imm) n).setWidth 64 = BitVec.ofNat 64 value := by
  rw [← BitVec.ofNat_toNat, memRead_loadAddress_toNat hb hn hsum]

end

/-! ### The number at each width of access -/

section
variable (b : Nat → Nat)

theorem byteSum_one : ∑ k ∈ Finset.range 1, b k * 256 ^ k = b 0 := by
  rw [Finset.sum_range_one, pow_zero, Nat.mul_one]

theorem byteSum_two : ∑ k ∈ Finset.range 2, b k * 256 ^ k = b 0 + b 1 * 2 ^ 8 := by
  rw [Finset.sum_range_succ, byteSum_one]
  rfl

theorem byteSum_four :
    ∑ k ∈ Finset.range 4, b k * 256 ^ k = b 0 + b 1 * 2 ^ 8 + b 2 * 2 ^ 16 + b 3 * 2 ^ 24 := by
  rw [Finset.sum_range_succ, Finset.sum_range_succ, byteSum_two]
  rfl

end

/-! ### The claim -/

/-- Settles O27: a load writes its register as the ALU instructions do, and the value is the extended number. -/
theorem loads : Obligations.Loads := by
  refine ⟨?lbWord, ?lhWord, ?lwWord, ?lbuWord, ?lhuWord, fun rd rs1 imm s b hb => ⟨?lb, ?lh, ?lw, ?lbu, ?lhu⟩⟩
  case lbWord | lhWord | lwWord | lbuWord | lhuWord => exact selectsI_of_encode (fun _ _ _ => rfl) (fun _ _ _ => rfl)
  case lb => exact computesInto_of_aluStep rfl (signExtend_memRead_loadAddress hb (.inl rfl) (byteSum_one b))
  case lh => exact computesInto_of_aluStep rfl (signExtend_memRead_loadAddress hb (.inr (.inl rfl)) (byteSum_two b))
  case lw => exact computesInto_of_aluStep rfl (signExtend_memRead_loadAddress hb (.inr (.inr rfl)) (byteSum_four b))
  case lbu => exact computesInto_of_aluStep rfl (setWidth_memRead_loadAddress hb (.inl rfl) (byteSum_one b))
  case lhu => exact computesInto_of_aluStep rfl (setWidth_memRead_loadAddress hb (.inr (.inl rfl)) (byteSum_two b))

end Sys2Proof.Machine
end

section
/-! The stores (43_stores.md R150 to R153): which words select them, and what a load of the same bytes reads back. -/

namespace Sys2Proof.Machine

/-- R61, R62: a store's opcode and funct3 and the word's own operand fields are all the bits of an S-format word. -/
theorem selectsS_of_encode {f3 : BitVec 3} {mk : Reg → Reg → BitVec 12 → Instr}
    (henc : ∀ rs2 rs1 imm, encode (mk rs2 rs1 imm) = packS imm rs2 rs1 f3 opcStore)
    (hwf : ∀ rs2 rs1 imm, (mk rs2 rs1 imm).wf = true) : SelectsS f3 mk := by
  intro w ho h3
  exact variantOf_of_encode ((henc ..).trans (packS_eq_word ho h3)) (hwf ..)

/-- Settles O28: the stores differ in their width only. -/
theorem stores : Obligations.Stores := by
  refine ⟨?sbWord, ?shWord, ?swWord, fun rs2 rs1 imm s => ⟨storeAddress_eq s rs1 imm, ?sb, ?sh, ?sw⟩⟩
  case sbWord | shWord | swWord => exact selectsS_of_encode (fun _ _ _ => rfl) (fun _ _ _ => rfl)
  case sb | sh | sw => exact storeStep_storesInto _ (by decide) ..

/-! ### A load after a store (R143 to R145, R153) -/

/-- R140, R150: loads and stores have one addressing mode. -/
theorem loadAddress_eq_storeAddress (s : State) (rs1 : Reg) (imm : BitVec 12) :
    s.loadAddress rs1 imm = s.storeAddress rs1 imm := by
  rw [loadAddress_eq, storeAddress_eq]

/-- A store changes no register, so the same operands name the same address after it (R150). -/
theorem setMem_advance_storeAddress (s : State) (m : Memory) (rs1 : Reg) (imm : BitVec 12) :
    (s.setMem m).advance.storeAddress rs1 imm = s.storeAddress rs1 imm := rfl

/-- A load with the address operands and the width of the store before it reads the bytes that store wrote. -/
theorem loadStep_after_storeStep (n : Nat) (hn : n ≤ 8) (widen : BitVec (8 * n) → RegVal) (rd rs1 rs2 : Reg)
    (imm : BitVec 12) (s : State) :
    ∃ t u, storeStep n rs2 rs1 imm s = .next t ∧ loadStep n widen rd rs1 imm t = .next u ∧
      u.x rd = if rd = 0 then 0 else widen ((s.x rs2).setWidth (8 * n)) := by
  refine ⟨_, _, rfl, rfl, ?_⟩
  rw [advance_x, x_setX_self, loadAddress_eq_storeAddress, setMem_advance_storeAddress, advance_mem, setMem_mem,
    memRead_memWrite _ _ _ _ hn]

/-- D19: LBU and LHU read the low bytes of the stored register as a number. -/
theorem zeroExtendingLoad_after_storeStep (n : Nat) (hn : n ≤ 8) (rd rs1 rs2 : Reg) (imm : BitVec 12) (s : State) :
    ∃ t u, storeStep n rs2 rs1 imm s = .next t ∧ loadStep n (·.setWidth 64) rd rs1 imm t = .next u ∧
      (u.x rd).toNat = if rd = 0 then 0 else (s.x rs2).toNat % 2 ^ (8 * n) := by
  obtain ⟨t, u, hstore, hload, hx⟩ := loadStep_after_storeStep n hn (·.setWidth 64) rd rs1 rs2 imm s
  refine ⟨t, u, hstore, hload, ?_⟩
  rw [hx, apply_ite BitVec.toNat, BitVec.toNat_setWidth_of_le (by omega), BitVec.toNat_setWidth]
  rfl

/-- D19: LW widens the stored word by its signed reading. -/
theorem signExtend_setWidth_toInt (v : RegVal) :
    ((v.setWidth 32).signExtend 64).toInt = signedOf 32 (v.toNat % 2 ^ 32) := by
  rw [BitVec.toInt_signExtend_of_le (by decide), toInt_eq_signedOf (by decide), BitVec.toNat_setWidth]

/-- D19: LW keeps the stored word in bits 31:0. -/
theorem signExtend_setWidth_toNat_mod (v : RegVal) :
    ((v.setWidth 32).signExtend 64).toNat % 2 ^ 32 = v.toNat % 2 ^ 32 := by
  have hlow : ((v.setWidth 32).signExtend 64).setWidth 32 = v.setWidth 32 := by
    ext k hk
    rw [BitVec.getElem_setWidth, BitVec.getLsbD_signExtend, if_pos hk, decide_eq_true (by omega), Bool.true_and,
      BitVec.getLsbD_eq_getElem hk]
  simpa only [BitVec.toNat_setWidth] using congrArg BitVec.toNat hlow

/-- Settles O16: what is read back is the stored value cut to the width, which each load extends in its own way. -/
theorem storeThenLoadRoundTrip : Obligations.StoreThenLoadRoundTrip := by
  refine fun s rd rs1 rs2 imm => ⟨?word, ?half, ?byte⟩
  case word =>
    obtain ⟨t, u, hstore, hload, hx⟩ := loadStep_after_storeStep 4 (by decide) (·.signExtend 64) rd rs1 rs2 imm s
    refine ⟨t, u, hstore, hload, ?signed, fun hrd => ?low⟩
    case signed =>
      rw [hx, apply_ite BitVec.toInt, signExtend_setWidth_toInt]
      rfl
    case low => rw [hx, if_neg hrd, signExtend_setWidth_toNat_mod]
  case half => exact zeroExtendingLoad_after_storeStep 2 (by decide) ..
  case byte => exact zeroExtendingLoad_after_storeStep 1 (by decide) ..

end Sys2Proof.Machine
end

section
/-! The branches (44_branches.md R160 to R167): which words select them, when each is taken, and the branch to
itself. -/

namespace Sys2Proof.Machine

/-- R61, R62: a branch's opcode and funct3 and the word's own operand fields are all the bits of a B-format word. Its
offset decodes to an even one, which is all that a branch needs to be well-formed (R65). -/
theorem selectsB_of_encode {f3 : BitVec 3} {mk : Reg → Reg → BitVec 13 → Instr}
    (henc : ∀ rs1 rs2 off, encode (mk rs1 rs2 off) = packB off rs2 rs1 f3 opcBranch)
    (hwf : ∀ rs1 rs2 off, (mk rs1 rs2 off).wf = !off.getLsbD 0) : SelectsB f3 mk := by
  intro w ho h3
  have heven : (!(bField w).getLsbD 0) = true := by rw [bField_even, Bool.not_false]
  exact variantOf_of_encode ((henc ..).trans (packB_eq_word ho h3)) ((hwf ..).trans heven)

/-! ### The comparisons as conditions on numbers (R10) -/

section
variable (a b : RegVal)

theorem ltSigned_iff : ltSigned a b = true ↔ a.toInt < b.toInt := decide_eq_true_iff

theorem not_ltSigned_iff : (!ltSigned a b) = true ↔ a.toInt ≥ b.toInt := by
  rw [Bool.not_eq_true', ← Bool.not_eq_true, ltSigned_iff, not_lt]

theorem ltUnsigned_iff : ltUnsigned a b = true ↔ a.toNat < b.toNat := decide_eq_true_iff

theorem not_ltUnsigned_iff : (!ltUnsigned a b) = true ↔ a.toNat ≥ b.toNat := by
  rw [Bool.not_eq_true', ← Bool.not_eq_true, ltUnsigned_iff, not_lt]

end

/-! ### The claims about each branch -/

/-- Settles O29: the branches differ in their condition only, and here it is the equality of the two words. -/
theorem equalityBranches : Obligations.EqualityBranches := by
  refine ⟨?beqWord, ?bneWord, fun rs1 rs2 off s => ⟨?beq, ?bne⟩⟩
  case beqWord | bneWord => exact selectsB_of_encode (fun _ _ _ => rfl) (fun _ _ _ => rfl)
  case beq => exact branchStep_branchesTo _ _ off s beq_iff_eq
  case bne => exact branchStep_branchesTo _ _ off s bne_iff_ne

/-- Settles O30: BLT is taken on the signed comparison and BGE on its negation. -/
theorem signedBranches : Obligations.SignedBranches := by
  refine ⟨?bltWord, ?bgeWord, fun rs1 rs2 off s => ⟨?blt, ?bge⟩⟩
  case bltWord | bgeWord => exact selectsB_of_encode (fun _ _ _ => rfl) (fun _ _ _ => rfl)
  case blt => exact branchStep_branchesTo _ _ off s (ltSigned_iff ..)
  case bge => exact branchStep_branchesTo _ _ off s (not_ltSigned_iff ..)

/-- Settles O31: BLTU is taken on the unsigned comparison and BGEU on its negation. -/
theorem unsignedBranches : Obligations.UnsignedBranches := by
  refine ⟨?bltuWord, ?bgeuWord, fun rs1 rs2 off s => ⟨?bltu, ?bgeu⟩⟩
  case bltuWord | bgeuWord => exact selectsB_of_encode (fun _ _ _ => rfl) (fun _ _ _ => rfl)
  case bltu => exact branchStep_branchesTo _ _ off s (ltUnsigned_iff ..)
  case bgeu => exact branchStep_branchesTo _ _ off s (not_ltUnsigned_iff ..)

/-! ### The branch to itself (R167, R235) -/

theorem branchTarget_zero (s : State) : s.branchTarget 0 = s.pc := BitVec.add_zero s.pc

/-- Without `P_SELF_TARGET_ADVANCES` a transfer to its own address changes nothing. -/
theorem transfer_pc_self {s : State} (hstays : s.cfg.selfTargetAdvances = false) : s.transfer s.pc = s := by
  simp only [State.transfer, hstays, Bool.false_and, Bool.false_eq_true, if_false]

/-- With `P_SELF_TARGET_ADVANCES` a transfer to its own address is what an instruction without a transfer does. -/
theorem transfer_pc_self_of_advances {s : State} (hadv : s.cfg.selfTargetAdvances = true) :
    s.transfer s.pc = s.advance := by
  simp only [State.transfer, hadv, Bool.true_and, beq_self_eq_true, if_true, State.advance]

/-- A state that is its own next state is where every number of steps from it ends. -/
theorem core_run_of_step_self {s : State} (hstep : step s = .next s) (k : Nat) :
    Host.Core.run Sys2Proof.core k s = .next s := by
  induction k with
  | zero => rfl
  | succ k ih => rw [core_run_succ k hstep, ih]

theorem variantOf_self_branch : variantOf 0x00000063#32 = .instr (.beq 0 0 0) := by decide

/-- R167: at `beq x0, x0, 0` a step is a transfer to its own address, since `x0` equals itself. -/
theorem step_self_branch {s : State} (hrun : s.status = .running) (hword : s.fetch = 0x00000063#32) :
    step s = .next (s.transfer s.pc) := by
  calc step s
      = exec (.beq 0 0 0) s := stepRunsTheDecodedInstruction s _ hrun (hword ▸ variantOf_self_branch)
    _ = .next (s.transfer (s.branchTarget 0)) := rfl
    _ = .next (s.transfer s.pc) := by rw [branchTarget_zero]

/-- Settles O44: the transfer to its own address is the identity or an advance, as the switch says. -/
theorem selfBranchLoopsForever : Obligations.SelfBranchLoopsForever := by
  intro s hrun hword
  have hstep := step_self_branch hrun hword
  refine ⟨fun hstays => ?loops, fun hadv => ?fallsThrough⟩
  case loops =>
    rw [transfer_pc_self hstays] at hstep
    exact core_run_of_step_self hstep
  case fallsThrough =>
    rw [transfer_pc_self_of_advances hadv] at hstep
    exact ⟨s.advance, hstep, fallsThrough_of_pc rfl, fun _ => rfl, fun _ => rfl, rfl, rfl⟩

end Sys2Proof.Machine
end

section
/-! The jumps (45_jumps.md R170 to R172): which words select them, what they link, where they land, and the corner in
which the order of JALR's two register accesses can be told. -/

namespace Sys2Proof.Machine

/-- The shape of the jumps (R170): the link goes to `rd` and control to the target, read as the claim writes it. -/
theorem jumps_of_setX_link_transfer {i : Instr} {s : State} {rd : Reg} {target result : Addr}
    (he : exec i s = .next ((s.setX rd s.link).transfer target)) (htarget : target = result) :
    ∃ t, exec i s = .next t ∧ WritesRegister rd (BitVec.ofNat 64 (s.pc.toNat + 4)) s t ∧ LandsOn result s t ∧
      KeepsMemory s t ∧ KeepsRun s t := by
  refine ⟨_, he, ?link, ?target, ?memory, ?run⟩
  case link => exact link_eq s ▸ writesRegister_setX s rd s.link
  case target => exact htarget ▸ landsOn_setX_transfer s rd s.link target
  case memory => exact fun a => setX_byte s rd s.link a
  case run => exact keepsRun_setX s rd s.link

/-- R172: JALR's target as a number, from the registers its base is read from. -/
theorem jalrTarget_eq (s : State) (rs1 : Reg) (imm : BitVec 12) :
    s.jalrTarget rs1 imm = BitVec.ofNat 64 ((addOffset (s.x rs1) imm.toInt).toNat / 2 * 2) := by
  rw [State.jalrTarget, clear_low_bit, add_immI_eq_addOffset]

/-- D4: the link write before the read is seen by the read only in the register both name, and never in `x0`. -/
theorem jalrBase_x (s : State) (rd rs1 : Reg) :
    (if s.cfg.jalrLinkFirst then s.setX rd s.link else s).x rs1 =
      if s.cfg.jalrLinkFirst = true ∧ rd = rs1 ∧ rd ≠ 0 then BitVec.ofNat 64 (s.pc.toNat + 4) else s.x rs1 := by
  cases s.cfg.jalrLinkFirst with
  | true => simp only [if_true, true_and, x_setX, link_eq, eq_comm]
  | false => simp only [Bool.false_eq_true, if_false, false_and]

/-- R78: where a transfer lands depends on the target, the old `pc` and the switch alone. -/
theorem pc_of_landsOn {target : Addr} {s t : State} (h : LandsOn target s t) : t.pc = (s.transfer target).pc := by
  have htransfer := landsOn_transfer s target
  rw [LandsOn] at h htransfer
  split at h
  · next hself =>
    rw [if_pos hself] at htransfer
    exact BitVec.eq_of_toNat_eq (h.trans htransfer.symm)
  · next hself =>
    rw [if_neg hself] at htransfer
    exact h.trans htransfer.symm

/-! ### The claims -/

/-- Settles O32: the target is the own address plus the offset as `P_JAL_SEXT` reads it. -/
theorem jumpAndLink : Obligations.JumpAndLink :=
  ⟨variantOf_jal, fun _ off s => jumps_of_setX_link_transfer rfl (jalTarget_eq s off)⟩

/-- Settles O33: the base is read before or after the link write, and what it then is decides the target. -/
theorem jumpAndLinkRegister : Obligations.JumpAndLinkRegister := by
  refine ⟨selectsI_of_encode (fun _ _ _ => rfl) (fun _ _ _ => rfl), fun rd rs1 imm s base hbase => ?_⟩
  apply jumps_of_setX_link_transfer rfl
  rw [jalrTarget_eq, jalrBase_x, hbase]

/-- Settles O35: both orders write the same link, and unless `rd = rs1` is not `x0` they read the same base. -/
theorem linkOrderMattersOnlyForOneRegister : Obligations.LinkOrderMattersOnlyForOneRegister := by
  intro rd rs1 imm s
  obtain ⟨t, ht, htlink, htlands, -⟩ :=
    jumpAndLinkRegister.2 rd rs1 imm { s with cfg := { s.cfg with jalrLinkFirst := true } } _ rfl
  obtain ⟨f, hf, hflink, hflands, -⟩ :=
    jumpAndLinkRegister.2 rd rs1 imm { s with cfg := { s.cfg with jalrLinkFirst := false } } _ rfl
  refine ⟨t, f, ht, hf, fun r => (htlink r).trans (hflink r).symm, fun hne => ?_⟩
  by_contra hother
  rw [if_neg fun h => hother h.2] at htlands hflands
  exact hne ((pc_of_landsOn htlands).trans (pc_of_landsOn hflands).symm)

end Sys2Proof.Machine
end

section
/-! The upper immediates (46_upper_immediate.md R180 to R182): which words select LUI and AUIPC, and what each writes,
as a number. -/

namespace Sys2Proof.Machine

/-! ### The results as numbers (R66, R69) -/

section
variable (imm20 : BitVec 20)

theorem immU_eq_ofInt : immU imm20 = BitVec.ofInt 64 (imm20.toInt * 4096) := by
  rw [← immU_toInt, BitVec.ofInt_toInt]

theorem add_immU_eq_addOffset (a : Addr) : a + immU imm20 = addOffset a (imm20.toInt * 4096) := by
  rw [add_eq_addOffset, immU_toInt]

end

/-! ### The claim -/

/-- Settles O34: LUI and AUIPC write their register as the ALU instructions do, and the value is the immediate alone
or added to the own address. -/
theorem upperImmediates : Obligations.UpperImmediates := by
  refine ⟨variantOf_lui, variantOf_auipc, fun rd imm20 s => ⟨?lui, ?auipc⟩⟩
  case lui => exact computesInto_of_aluStep rfl (immU_eq_ofInt imm20)
  case auipc => exact computesInto_of_aluStep rfl (add_immU_eq_addOffset imm20 s.pc)

end Sys2Proof.Machine
end

section
/-! The unrecognized words at a step (47_unrecognized.md R190, 60_exceptions.md R200, R201): where they are met a step
stops or passes, only there the run status changes, and what the stop records stays true. -/

namespace Sys2Proof.Machine

/-- Where the fetched word is unrecognized, a running core does what R190 says, and `step` adds nothing. -/
theorem step_of_unrecognized {s : State} (hrun : s.status = .running) (hvar : variantOf s.fetch = .unrecognized) :
    step s = execUnrecognized s.fetch s := by
  simp only [step, hrun, decode, hvar]

theorem execUnrecognized_strict (word : Word) {s : State} (hstrict : s.cfg.strict = true) :
    execUnrecognized word s = .next (s.raiseIllegalInstruction word) := by
  rw [execUnrecognized, if_pos hstrict]

theorem execUnrecognized_compatible (word : Word) {s : State} (hstrict : s.cfg.strict = false) :
    execUnrecognized word s = .next s.advance := by
  rw [execUnrecognized, hstrict, if_neg Bool.false_ne_true]

/-- Settles O37: the step is the raise of the event in strict mode, and an advance of `pc` in compatibility mode. -/
theorem unrecognizedWordStopsOrPasses : Obligations.UnrecognizedWordStopsOrPasses := by
  intro s hrun hvar
  have hstep := step_of_unrecognized hrun hvar
  refine ⟨fun hstrict => ?stops, fun hstrict => ?passes⟩
  case stops =>
    exact ⟨_, hstep.trans (execUnrecognized_strict _ hstrict), raise_status .., raise_pc .., fun _ => rfl,
      fun _ => rfl, raise_cfg ..⟩
  case passes =>
    exact ⟨_, hstep.trans (execUnrecognized_compatible _ hstrict), fallsThrough_of_pc (advance_pc s), advance_x s,
      advance_byte s, advance_status s, advance_cfg s⟩

/-- Settles O38: an instruction keeps the status, and of the four things a step can do only the stop changes it. -/
theorem onlyUnrecognizedWordsStop : Obligations.OnlyUnrecognizedWordsStop := by
  have hexec (i : Instr) (s : State) : ∃ t, exec i s = .next t ∧ t.status = s.status := by
    obtain ⟨t, ht, hstatus, -⟩ := exec_next i s
    exact ⟨t, ht, hstatus⟩
  refine ⟨hexec, fun s => ?_⟩
  rcases step_cases s with ⟨_, _, -, he⟩ | ⟨i, -, -, he⟩ | ⟨hrun, hvar, hstrict, he⟩ | ⟨-, -, -, he⟩
  · exact ⟨s, he, absurd rfl⟩
  · obtain ⟨t, ht, hstatus⟩ := hexec i s
    exact ⟨t, he.trans ht, absurd hstatus⟩
  · exact ⟨_, he, fun _ => ⟨hrun, hstrict, hvar, raise_status ..⟩⟩
  · exact ⟨_, he, absurd (advance_status s)⟩

/-! ### The record of a stop (R31, R201) -/

/-- A running core has no stop to record. -/
theorem stopRecord_of_running {s : State} (hrun : s.status = .running) : s.StopRecord :=
  fun _ _ hstop => nomatch hrun.symm.trans hstop

/-- The stop moves neither `pc` nor a byte, so the record holds of the state it leaves. -/
theorem stopRecord_raise {s : State} (hvar : variantOf s.fetch = .unrecognized) (hstrict : s.cfg.strict = true) :
    (s.raiseIllegalInstruction s.fetch).StopRecord := by
  intro pc word hstop
  cases hstop
  exact ⟨rfl, rfl, hvar, hstrict⟩

/-- Settles O47, by the four things a step can do: a stopped core stays as it is, the step that stops one writes a true
record, and the others leave a running core. -/
theorem stepKeepsTheStopRecord : Obligations.StepKeepsTheStopRecord := by
  intro s t hrecord hstep
  rcases step_cases s with ⟨_, _, -, he⟩ | ⟨i, hrun, -, he⟩ | ⟨-, hvar, hstrict, he⟩ | ⟨hrun, -, -, he⟩
  · cases hstep.symm.trans he
    exact hrecord
  · obtain ⟨hstatus, -⟩ := exec_keepsRun (he.symm.trans hstep)
    exact stopRecord_of_running (hstatus.trans hrun)
  · cases hstep.symm.trans he
    exact stopRecord_raise hvar hstrict
  · cases hstep.symm.trans he
    exact stopRecord_of_running hrun

end Sys2Proof.Machine
end

section
/-! Reset, and the invariants of a session from reset on (60_exceptions.md R212, R213, 70_reset_and_hazards.md R230). -/

namespace Sys2Proof.Machine

/-! ### The state after reset -/

section
variable (cfg : Config) (entry : Addr)

@[simp] theorem resetAt_x (r : Reg) : (State.resetAt cfg entry).x r = 0 := by
  simp [State.x, State.resetAt]

@[simp] theorem resetAt_byte (a : Addr) : (State.resetAt cfg entry).byte a = 0 := get_nil a

theorem resetAt_inv : (State.resetAt cfg entry).Inv := ⟨wf_nil, rfl⟩

theorem resetAt_stopRecord : (State.resetAt cfg entry).StopRecord := stopRecord_of_running rfl

end

/-- Settles O46: an empty memory is canonical, the registers are 0, and a running core has no stop to record. -/
theorem resetMeetsTheInvariants : Obligations.ResetMeetsTheInvariants :=
  ⟨fun cfg entry => ⟨resetAt_inv cfg entry, resetAt_stopRecord cfg entry⟩, resetAt_inv .., resetAt_stopRecord _ _⟩

/-- Settles O50: a reset session is a constructed one, and its core is the state after reset. -/
theorem resetValues : Obligations.ResetValues :=
  ⟨fun h entry => ⟨rfl, resetAt_x h.core.cfg entry, rfl, resetAt_byte h.core.cfg entry, rfl, rfl⟩,
    resetAt_x _ _, rfl, resetAt_byte _ _, rfl⟩

/-! ### Each operation of the host keeps the invariants -/

theorem construct_inv (cfg : Config) (entry : Addr) : (Session.construct cfg entry).Inv :=
  ⟨resetAt_inv cfg entry, resetAt_stopRecord cfg entry, fun _ => rfl⟩

theorem loadImage_inv {s : State} (hinv : s.Inv) (base : Addr) (bytes : List Byte) : (s.loadImage base bytes).Inv :=
  hinv.imp_left (wf_loadBytes · base bytes)

/-- `load` before the first step (R233): the core with the buffer in its memory. -/
theorem load_of_not_stepped {h : Session} (hnot : h.stepped = false) (base : Addr) (bytes : List Byte) :
    h.load base bytes = .next { h with core := h.core.loadImage base bytes } := by
  rw [Session.load, hnot, if_neg Bool.false_ne_true]

/-- `load` after a step (R233, D28). -/
theorem load_of_stepped {h : Session} (hstepped : h.stepped = true) (base : Addr) (bytes : List Byte) :
    h.load base bytes = .refused .loadAfterFirstStep := by
  rw [Session.load, if_pos hstepped]

/-- A session that may load has not stepped, so its core runs and has no stop to record. -/
theorem load_keeps_inv {h h' : Session} {base : Addr} {bytes : List Byte} (hinv : h.Inv)
    (hload : h.load base bytes = .next h') : h'.Inv := by
  obtain ⟨hcore, -, hfresh⟩ := hinv
  cases hstepped : h.stepped with
  | true => cases hload.symm.trans (load_of_stepped hstepped base bytes)
  | false =>
    cases hload.symm.trans (load_of_not_stepped hstepped base bytes)
    exact ⟨loadImage_inv hcore base bytes, stopRecord_of_running (hfresh hstepped), hfresh⟩

theorem sessionStep_keeps_inv {h h' : Session} (hinv : h.Inv) (hstep : h.step = .next h') : h'.Inv := by
  obtain ⟨h₁, hh₁, hcore, hstepped, hsame⟩ := sessionStep_next h
  cases hstep.symm.trans hh₁
  by_cases hrun : h.core.status = .running
  · obtain ⟨hstate, hrecord, -⟩ := hinv
    exact ⟨stepKeepsTheInvariant _ _ hstate hcore, stepKeepsTheStopRecord _ _ hrecord hcore,
      fun hnot => nomatch hnot.symm.trans (hstepped hrun)⟩
  · exact hsame hrun ▸ hinv

/-- Settles O48, by the operations of the host: reset constructs a session, `load` finds a core that runs, `step` keeps
the invariants of the core, and `run` keeps what every step keeps. -/
theorem hostOperationsKeepTheInvariants : Obligations.HostOperationsKeepTheInvariants := by
  intro h h' op hinv hop
  cases op with
  | reset entry =>
    cases hop
    exact construct_inv h.core.cfg entry
  | load base bytes => exact load_keeps_inv hinv hop
  | step => exact sessionStep_keeps_inv hinv hop
  | run budget cancelAfter =>
    cases hop
    exact sessionRun_keeps (fun _ _ => sessionStep_keeps_inv) h budget cancelAfter hinv

end Sys2Proof.Machine
end

section
/-! Loading and booting (60_exceptions.md R212, 70_reset_and_hazards.md R232, R233): what the host's buffer and the
loader's copy leave, byte by byte. -/

namespace Sys2Proof.Machine

/-! ### The bytes of a loaded buffer -/

section
variable (s : State) (base : Addr) {bytes : List Byte} (hlen : bytes.length ≤ 2 ^ 64)
include hlen

theorem loadImage_byte_written (i : Nat) (hi : i < bytes.length) :
    (s.loadImage base bytes).byte (base + BitVec.ofNat 64 i) = bytes[i] := by
  have hoffset : (base + BitVec.ofNat 64 i - base).toNat = i := (offset_toNat _ _ i (by omega)).1 rfl
  rw [State.loadImage, setMem_byte, get_loadBytes _ _ _ _ hlen, hoffset, List.getElem?_eq_getElem hi, Option.getD_some]

theorem loadImage_byte_kept {a : Addr} (ha : ∀ i, i < bytes.length → a ≠ base + BitVec.ofNat 64 i) :
    (s.loadImage base bytes).byte a = s.byte a := by
  have hoffset : bytes.length ≤ (a - base).toNat := by
    by_contra hlt
    exact ha _ (not_le.1 hlt) ((offset_toNat _ _ _ (a - base).isLt).2 rfl)
  rw [State.loadImage, setMem_byte, get_loadBytes _ _ _ _ hlen, List.getElem?_eq_none hoffset, Option.getD_none,
    State.byte]

end

/-- Settles O52: before the first step `load` replaces the memory alone, by what `get_loadBytes` says; a step of a
running core sets the flag on which `load` is refused. -/
theorem loadOnlyBeforeTheFirstStep : Obligations.LoadOnlyBeforeTheFirstStep := by
  refine ⟨fun h base bytes hnot hlen => ?before, fun h h' base bytes hrun hstep => ?after⟩
  case before =>
    simp only [ofNat_toNat_add]
    exact ⟨_, load_of_not_stepped hnot base bytes, hnot, loadImage_byte_written h.core base hlen,
      fun _ => loadImage_byte_kept h.core base hlen, fun _ => rfl, rfl, rfl, rfl⟩
  case after =>
    obtain ⟨h₁, hh₁, -, hstepped, -⟩ := sessionStep_next h
    cases hstep.symm.trans hh₁
    exact load_of_stepped (hstepped hrun) base bytes

/-! ### The first fetch after boot -/

/-- Four bytes that are a word's make a read of that word (R43, R46). -/
theorem memRead_eq_of_wordBytes {m : Memory} {addr : Addr} {w : Word}
    (h : ∀ i, i < 4 → m.get (addr + BitVec.ofNat 64 i) = wordByte w i) : memRead m addr 4 = w := by
  apply BitVec.eq_of_getLsbD_eq
  intro k hk
  have hbit : k % 8 < 8 := Nat.mod_lt k (by decide)
  rw [getLsbD_memRead _ _ _ _ (by decide), h _ (by omega), wordByte, BitVec.getLsbD_extractLsb', Nat.div_add_mod,
    decide_eq_true hk, decide_eq_true hbit, Bool.true_and, Bool.true_and]

theorem layOutWord_length (w : Word) : (layOutWord w).length = 4 := rfl

theorem layOutWord_getElem (w : Word) {i : Nat} (hi : i < (layOutWord w).length) :
    (layOutWord w)[i] = wordByte w i := by
  rw [layOutWord_length] at hi
  interval_cases i <;> rfl

/-- The bytes of a word at the front of a loaded buffer are fetched as that word from the buffer's address. -/
theorem loadImage_fetch (s : State) (w : Word) {rest : List Byte} (hlen : rest.length + 4 ≤ 2 ^ 64) :
    (s.loadImage s.pc (layOutWord w ++ rest)).fetch = w := by
  refine memRead_eq_of_wordBytes fun i hi => ?_
  have hbytes : (layOutWord w ++ rest).length = rest.length + 4 := by
    rw [List.length_append, layOutWord_length, Nat.add_comm]
  have hfront : i < (layOutWord w ++ rest).length := by omega
  calc (loadBytes s.mem s.pc (layOutWord w ++ rest)).get (s.pc + BitVec.ofNat 64 i)
      = (layOutWord w ++ rest)[i] := loadImage_byte_written s s.pc (hbytes ▸ hlen) i hfront
    _ = (layOutWord w)[i] := List.getElem_append_left hi
    _ = wordByte w i := layOutWord_getElem w hi

/-- Settles O53: boot is `load` into a constructed session, which has not stepped. -/
theorem bootedImageIsFetched : Obligations.BootedImageIsFetched :=
  fun cfg entry w _ hlen => ⟨_, load_of_not_stepped rfl entry _, loadImage_fetch (State.resetAt cfg entry) w hlen,
    rfl, rfl, rfl, rfl, resetAt_x cfg entry⟩

/-! ### The loader's copy -/

/-- Settles O57: the two checks of sizes, and then a list of which one stretch is cut out. -/
theorem loaderCopiesWholeSectors : Obligations.LoaderCopiesWholeSectors := by
  intro disk capacity
  refine ⟨rfl, fun r => ⟨fun hsmall => ?fails, fun hcapacity hdisk => ?copies⟩⟩
  case fails =>
    rw [loaderCopy]
    split
    · rfl
    · next hfits => rw [if_pos (hsmall.resolve_left hfits)]
  case copies =>
    rw [loaderCopy, if_neg (not_lt.2 hcapacity), if_neg (not_lt.2 hdisk)]
    refine ⟨_, rfl, ?_, fun i hi => ?_⟩
    · rw [List.length_take, List.length_drop]
      omega
    · rw [List.getElem?_take_of_lt hi, List.getElem?_drop]

end Sys2Proof.Machine
end

section
/-! Runs of a session (60_exceptions.md R204, R212, R213): a run is its steps, a budget that ends leaves a session to
go on from, and a cancellation is a smaller budget. -/

namespace Sys2Proof.Machine

/-- What a run does where budget is left and no cancellation has arrived: nothing if the core has stopped; else one
step, after which it counts the instruction and goes on, or ends uncounted because that step stopped the core. -/
theorem sessionRun_succ_cases (h : Session) :
    (∃ pc word, h.core.status = .illegal pc word) ∨
    (∃ h' : Session, step h.core = .next h'.core ∧ ∀ n c, c ≠ some 0 → h.run (n + 1) c =
      { session := (h'.run n (c.map (· - 1))).session, completed := (h'.run n (c.map (· - 1))).completed + 1 }) ∨
    (∃ (h' : Session) (pc : Addr) (word : Word), step h.core = .next h'.core ∧ h'.core.status = .illegal pc word ∧
      ∀ n c, c ≠ some 0 → h.run (n + 1) c = { session := h', completed := 0 }) := by
  cases hrun : h.core.status with
  | illegal pc word => exact .inl ⟨pc, word, rfl⟩
  | running =>
    obtain ⟨h', hstep, hcore, -⟩ := sessionStep_next h
    cases hnext : h'.core.status with
    | running => exact .inr (.inl ⟨h', hcore, fun n c hc => by simp [Session.run, hrun, hstep, hnext]⟩)
    | illegal pc word =>
      exact .inr (.inr ⟨h', pc, word, hcore, hnext, fun n c hc => by simp [Session.run, hrun, hstep, hnext]⟩)

/-- Settles O54, by induction on the budget: a step that goes on leaves the rest of the run, and a stopped core stays as
it is for the steps that are left. -/
theorem runIsRepeatedStep : Obligations.RunIsRepeatedStep := by
  intro h n
  induction n generalizing h with
  | zero => exact ⟨rfl, Nat.le_refl 0, fun hlt => absurd hlt (Nat.lt_irrefl 0)⟩
  | succ n ih =>
    rcases sessionRun_succ_cases h with ⟨pc, word, hstop⟩ | ⟨h', hstep, hgo⟩ | ⟨h', pc, word, hstep, hstop, hend⟩
    · obtain ⟨-, hrun, hcore⟩ := stoppedCoreStaysStopped h pc word hstop
      rw [hrun]
      exact ⟨hcore _, Nat.zero_le _, fun _ => ⟨pc, word, hstop⟩⟩
    · obtain ⟨hcore, hle, hlt⟩ := ih h'
      rw [core_run_succ n hstep, hgo n none nofun]
      exact ⟨hcore, Nat.succ_le_succ hle, fun h => hlt (Nat.lt_of_succ_lt_succ h)⟩
    · obtain ⟨-, -, hcore⟩ := stoppedCoreStaysStopped h' pc word hstop
      rw [core_run_succ n hstep, hend n none nofun]
      exact ⟨hcore n, Nat.zero_le _, fun _ => ⟨pc, word, hstop⟩⟩

/-- Settles O55, by induction on the first budget: its run leaves a running core, so each of its steps went on. -/
theorem runsCompose : Obligations.RunsCompose := by
  intro h n m hrun
  induction n generalizing h with
  | zero =>
    rw [Nat.zero_add, Session.run, Nat.zero_add]
    exact ⟨rfl, rfl⟩
  | succ n ih =>
    rcases sessionRun_succ_cases h with ⟨pc, word, hstop⟩ | ⟨h', -, hgo⟩ | ⟨h', pc, word, -, hstop, hend⟩
    · rw [sessionRun_stopped hstop] at hrun
      cases hrun.symm.trans hstop
    · rw [hgo n none nofun] at hrun
      obtain ⟨hsession, hcompleted⟩ := ih h' hrun
      rw [Nat.add_right_comm, hgo n none nofun, hgo (n + m) none nofun]
      exact ⟨hsession, (congrArg (· + 1) hcompleted).trans (Nat.add_right_comm ..)⟩
    · rw [hend n none nofun] at hrun
      cases hrun.symm.trans hstop

/-- Settles O56, by induction on the budget: a step that goes on leaves one less of the budget and one less instruction
until the cancellation. -/
theorem cancellationActsAsABudget : Obligations.CancellationActsAsABudget := by
  intro h n k
  induction n generalizing h k with
  | zero => rw [Nat.zero_min, Session.run, Session.run]
  | succ n ih =>
    cases k with
    | zero => rw [Nat.min_zero, Session.run, Session.run]
    | succ k =>
      rw [Nat.succ_min_succ]
      rcases sessionRun_succ_cases h with ⟨pc, word, hstop⟩ | ⟨h', -, hgo⟩ | ⟨h', pc, word, -, -, hend⟩
      · rw [sessionRun_stopped hstop, sessionRun_stopped hstop]
      · rw [hgo n (some (k + 1)) nofun, hgo (min n k) none nofun, Option.map_some, Nat.add_sub_cancel, ih h' k,
          Option.map_none]
      · rw [hend n (some (k + 1)) nofun, hend (min n k) none nofun]

end Sys2Proof.Machine
end

section
/-! Words that are no instruction (47_unrecognized.md R191 to R195): which fields an instruction's word has under each
major opcode, and so which combinations are unrecognized. -/

namespace Sys2Proof

section
variable {w : Word} {i : Instr}

theorem decodeOp_fields (h : decodeOp w = .instr i) :
    funct7 w = 0b0000000#7 ∨ funct7 w = 0b0100000#7 ∧ (funct3 w = 0b000#3 ∨ funct3 w = 0b101#3) := by
  unfold decodeOp at h
  split at h
  case h_2 => exact .inr ⟨‹_›, .inl ‹_›⟩
  case h_8 => exact .inr ⟨‹_›, .inr ‹_›⟩
  case h_11 => cases h
  all_goals exact .inl ‹_›

theorem decodeOpImm_funct7_of_001 (h : decodeOpImm w = .instr i) (h3 : funct3 w = 0b001#3) :
    funct7 w = 0b0000000#7 := by
  simp only [decodeOpImm, h3] at h
  split at h
  · assumption
  · cases h

theorem decodeOpImm_funct7_of_101 (h : decodeOpImm w = .instr i) (h3 : funct3 w = 0b101#3) :
    funct7 w = 0b0000000#7 ∨ funct7 w = 0b0100000#7 := by
  simp only [decodeOpImm, h3] at h
  split at h
  · exact .inl ‹_›
  · exact .inr ‹_›
  · cases h

theorem decodeLoad_funct3 (h : decodeLoad w = .instr i) :
    funct3 w ≠ 0b011#3 ∧ funct3 w ≠ 0b110#3 ∧ funct3 w ≠ 0b111#3 := by
  unfold decodeLoad at h
  split at h
  case h_6 => cases h
  all_goals next hf => rw [hf]; decide

theorem decodeBranch_funct3 (h : decodeBranch w = .instr i) : funct3 w ≠ 0b010#3 ∧ funct3 w ≠ 0b011#3 := by
  unfold decodeBranch at h
  split at h
  case h_7 => cases h
  all_goals next hf => rw [hf]; decide

theorem decodeJalr_funct3 (h : decodeJalr w = .instr i) : funct3 w = 0b000#3 := by
  unfold decodeJalr at h
  split at h
  · assumption
  · cases h

end

theorem Variant.eq_unrecognized {v : Variant} (h : ∀ i, v ≠ .instr i) : v = .unrecognized := by
  cases v with
  | instr i => exact absurd rfl (h i)
  | unrecognized => rfl

end Sys2Proof

namespace Sys2Proof.Machine

/-- Settles O9, each clause by what the word would have to be if it were an instruction's. -/
theorem unrecognizedCombinations : Obligations.UnrecognizedCombinations := by
  intro w
  refine ⟨fun ho h7 h7' => ?op, fun ho h7 h3 h3' => ?opMinus, fun ho h3 h7 => ?shiftLeft, fun ho h3 h7 h7' => ?shiftRight,
    fun ho h3 => ?load, fun ho h3 => ?store, fun ho h3 => ?branch, fun ho h3 => ?jalr,
    fun h1 h2 h3 h4 h5 h6 h7 h8 h9 => ?other⟩ <;> refine Variant.eq_unrecognized fun i hi => ?_
  case op =>
    rcases decodeOp_fields ((variantOf_op w ho).symm.trans hi) with h | ⟨h, -⟩
    · exact h7 h
    · exact h7' h
  case opMinus =>
    rcases decodeOp_fields ((variantOf_op w ho).symm.trans hi) with h | ⟨-, h | h⟩
    · cases h7.symm.trans h
    · exact h3 h
    · exact h3' h
  case shiftLeft => exact h7 (decodeOpImm_funct7_of_001 ((variantOf_opImm w ho).symm.trans hi) h3)
  case shiftRight => exact (decodeOpImm_funct7_of_101 ((variantOf_opImm w ho).symm.trans hi) h3).elim h7 h7'
  case load =>
    obtain ⟨h011, h110, h111⟩ := decodeLoad_funct3 ((variantOf_load w ho).symm.trans hi)
    exact h3.elim h011 (·.elim h110 h111)
  case store =>
    have hlt := decodeStore_funct3 ((variantOf_store w ho).symm.trans hi)
    rcases h3 with h | h
    · rw [h] at hlt
      exact absurd hlt (by decide)
    · omega
  case branch =>
    obtain ⟨h010, h011⟩ := decodeBranch_funct3 ((variantOf_branch w ho).symm.trans hi)
    exact h3.elim h010 h011
  case jalr => exact h3 (decodeJalr_funct3 ((variantOf_jalr w ho).symm.trans hi))
  case other =>
    rcases variantOf_instr_cases w hi with ⟨ho, -⟩ | ⟨ho, -⟩ | ⟨ho, -⟩ | ⟨ho, -⟩ | ⟨ho, -⟩ | ⟨ho, -⟩ | ⟨ho, -⟩ |
      ⟨ho, -⟩ | ⟨ho, -⟩ <;> contradiction

/-- Settles O10, by evaluating the decoder on the twelve words. -/
theorem sampleWordsDecode : Obligations.SampleWordsDecode := by
  unfold Obligations.SampleWordsDecode
  decide

end Sys2Proof.Machine
end
